-- ==== Sys2Proof/Word.lean ====
section
/-! DEFINITION. The word types of the machine: what `00_scope.md` R6, R7 and `10_state.md` R20 treat as bits.
Every value is unsigned; nothing on this hardware sign-extends (R7). -/

namespace Sys2Proof

/-- A general register, a timer, a memory cell, an immediate `NN`: 8 bits (R20). -/
abbrev Byte := BitVec 8

/-- An instruction word, the program counter, and the cell of the address register at its widest: 16 bits (R20, R70, U1). -/
abbrev Word := BitVec 16

/-- A call-stack entry, an immediate `NNN`, a word's remainder: 12 bits (R20, R30, R71). -/
abbrev Addr := BitVec 12

/-- The index of a general register, a field `X` or `Y`: 4 bits, every value legal (R71, R73). -/
abbrev RegIdx := BitVec 4

/-- The immediate `N` of `DXYN`: 4 bits (R9, R71). -/
abbrev Nibble := BitVec 4

/-- The code of one of the sixteen keys (R37, R39, R237). -/
abbrev KeyCode := BitVec 4

/-- `VF`, the flag register: general register 15 (R20, R23). -/
abbrev flagReg : RegIdx := 15#4

end Sys2Proof
end

