-- ==== Sys2Proof/Config.lean ====
section
/-! DEFINITION. What an implementation fixes (`00_scope.md` R4) and the values the environment leaves free
(`10_state.md` R37, R38). `Config.standard` is the configuration every rule of the spec assumes; `exec` and `step` use it,
and the definitions ending in `Under` give the meaning under any other choice (log 6). -/

namespace Sys2Proof

/-- The open rows of R4. The rows the document fixes (sixteen 8-bit registers, 4096 bytes, a 16-bit `pc`, a 64x32 display)
are in the types of `State`. -/
structure Config where
  /-- `CAT0_MASK`: the sub-dispatch mask of category 0 (R74, D2). DESIGN CHOICE of the spec. -/
  cat0Mask : Addr := 0x0FF#12
  /-- `I_WIDTH`: the bits a write of the address register keeps, 12 or 16 (R25, R26, D4, U1; log 7). DESIGN CHOICE of the spec. -/
  iWidth : Nat := 12
  /-- `STACK_DEPTH`: the most entries the call stack holds, `none` for unbounded (R30, D5). DESIGN CHOICE of the spec. -/
  stackDepth : Option Nat := some 16
  /-- `RET_OFFSET`: added to the popped address by `RET` (R104, D6, C1). -/
  retOffset : Nat := 0
  /-- `SUBN_REVERSED`: `8XY7` computes Vy - Vx (R141, D7). -/
  subnReversed : Bool := false
  /-- `KEY_OOR`: the answer of the key query for a code above 15 (R37, D12). DESIGN CHOICE of the spec. -/
  keyOor : Bool := false
  /-- `HAS_FONT`: a font table exists (R202, D16). The spec gives no meaning to `true` (U21). -/
  hasFont : Bool := false
  deriving DecidableEq, Repr

/-- The defaults of R4. -/
def Config.standard : Config := {}

/-- `PC_RESET`: the program counter after reset and the load address of an image (R4, R58, R251). -/
def Config.pcReset : Word := 0x200#16

/-- The most bytes an image may have: 4096 - 512 (R62). -/
def Config.maxImage : Nat := 3584

/-- The random source's byte for its n-th sample: any value, under no law (R38, R143, R238, U7; log 2). FREE VALUE. -/
opaque Config.randomByte : Nat → Byte

/-- Whether the key was held down at the input source's n-th sample: any Boolean, under no law, so the levels may change
between any two samples (R5, R37, R237; log 3). FREE VALUE. -/
opaque Config.keyLevel : Nat → KeyCode → Bool

end Sys2Proof
end

