-- ==== Sys2Proof/Syntax.lean ====
section
/-! DEFINITION. The 34 instructions (`30_encoding.md` R81, R83), one constructor per row of `spec/opcode_table.json`, and the
decoder's 34 handler identities. A constructor carries exactly the fields its handler uses: bits that decoder and handler
both ignore make aliases of the same instruction (R78) and are not carried (log 16). -/

namespace Sys2Proof

/-- An instruction with its operands. -/
inductive Instr where
  /-- `00E0` CLS -/
  | cls
  /-- `00EE` RET -/
  | ret
  /-- `1NNN` JP addr -/
  | jp (nnn : Addr)
  /-- `2NNN` CALL addr -/
  | call (nnn : Addr)
  /-- `3XNN` SE Vx, byte -/
  | seImm (x : RegIdx) (nn : Byte)
  /-- `4XNN` SNE Vx, byte -/
  | sneImm (x : RegIdx) (nn : Byte)
  /-- `5XY0` SE Vx, Vy -/
  | seReg (x y : RegIdx)
  /-- `6XNN` LD Vx, byte -/
  | ldImm (x : RegIdx) (nn : Byte)
  /-- `7XNN` ADD Vx, byte -/
  | addImm (x : RegIdx) (nn : Byte)
  /-- `8XY0` LD Vx, Vy -/
  | ldReg (x y : RegIdx)
  /-- `8XY1` OR Vx, Vy -/
  | or (x y : RegIdx)
  /-- `8XY2` AND Vx, Vy -/
  | and (x y : RegIdx)
  /-- `8XY3` XOR Vx, Vy -/
  | xor (x y : RegIdx)
  /-- `8XY4` ADD Vx, Vy -/
  | addReg (x y : RegIdx)
  /-- `8XY5` SUB Vx, Vy -/
  | sub (x y : RegIdx)
  /-- `8XY6` SHR Vx -/
  | shr (x : RegIdx)
  /-- `8XY7` SUBN Vx, Vy -/
  | subn (x y : RegIdx)
  /-- `8XYE` SHL Vx -/
  | shl (x : RegIdx)
  /-- `9XY0` SNE Vx, Vy -/
  | sneReg (x y : RegIdx)
  /-- `ANNN` LD I, addr -/
  | ldI (nnn : Addr)
  /-- `BNNN` JP V0, addr -/
  | jpV0 (nnn : Addr)
  /-- `CXNN` RND Vx, byte -/
  | rnd (x : RegIdx) (nn : Byte)
  /-- `DXYN` DRW Vx, Vy, nibble -/
  | drw (x y : RegIdx) (n : Nibble)
  /-- `EX9E` SKP Vx -/
  | skp (x : RegIdx)
  /-- `EXA1` SKNP Vx -/
  | sknp (x : RegIdx)
  /-- `FX07` LD Vx, DT -/
  | ldVxDt (x : RegIdx)
  /-- `FX0A` LD Vx, K -/
  | ldVxK (x : RegIdx)
  /-- `FX15` LD DT, Vx -/
  | ldDtVx (x : RegIdx)
  /-- `FX18` LD ST, Vx -/
  | ldStVx (x : RegIdx)
  /-- `FX1E` ADD I, Vx -/
  | addI (x : RegIdx)
  /-- `FX29` LD F, Vx -/
  | ldFont (x : RegIdx)
  /-- `FX33` LD B, Vx -/
  | bcd (x : RegIdx)
  /-- `FX55` LD [I], Vx -/
  | store (x : RegIdx)
  /-- `FX65` LD Vx, [I] -/
  | load (x : RegIdx)
  deriving DecidableEq, Repr

/-- The closed set of handler identities, "one tag per semantic instruction, not per decoded bit-pattern" (R81). -/
inductive Tag where
  | cls | ret | jp | call | seImm | sneImm | seReg | ldImm | addImm | ldReg | or | and | xor | addReg | sub | shr | subn | shl
  | sneReg | ldI | jpV0 | rnd | drw | skp | sknp | ldVxDt | ldVxK | ldDtVx | ldStVx | addI | ldFont | bcd | store | load
  deriving DecidableEq, Repr

end Sys2Proof
end

