-- ==== Sys2Proof/Decode.lean ====
section
/-! DEFINITION. The two-level decoder (`30_encoding.md` R70 to R78), total on any bytes and rejecting by name, and after it the
encoder, written from the opcode map R83. The numeric patterns are the spec's D1 and D2 (log 14). -/

namespace Sys2Proof

/-! ## Fields (R71) -/

/-- `cat = w[15:12]`. -/
def category (w : Word) : BitVec 4 := w.extractLsb' 12 4

/-- `r = w[11:0]`, the remainder: the handler's argument payload. -/
def payload (w : Word) : Addr := w.extractLsb' 0 12

/-- `X = w[11:8]`, cut from the payload. -/
def fieldX (r : Addr) : RegIdx := r.extractLsb' 8 4

/-- `Y = w[7:4]`. -/
def fieldY (r : Addr) : RegIdx := r.extractLsb' 4 4

/-- `N = w[3:0]`. -/
def fieldN (r : Addr) : Nibble := r.extractLsb' 0 4

/-- `NN = w[7:0]`. -/
def fieldNN (r : Addr) : Byte := r.extractLsb' 0 8

/-! ## The decoder's tables (R74, R75) -/

/-- An entry of the category table: "either a single handler ... or a sub-dispatch keyed by a category-specific bitmask". -/
inductive Entry where
  | single (t : Tag)
  | sub (mask : Addr) (table : List (Addr × Tag))
  deriving DecidableEq, Repr

/-- Sub-dispatch of category 0. -/
def table0 : List (Addr × Tag) := [(0x0E0#12, .cls), (0x0EE#12, .ret)]

/-- Sub-dispatch of category 8. -/
def table8 : List (Addr × Tag) :=
  [(0x0#12, .ldReg), (0x1#12, .or), (0x2#12, .and), (0x3#12, .xor), (0x4#12, .addReg), (0x5#12, .sub), (0x6#12, .shr),
   (0x7#12, .subn), (0xE#12, .shl)]

/-- Sub-dispatch of category E. -/
def tableE : List (Addr × Tag) := [(0x09E#12, .skp), (0x0A1#12, .sknp)]

/-- Sub-dispatch of category F. -/
def tableF : List (Addr × Tag) :=
  [(0x007#12, .ldVxDt), (0x00A#12, .ldVxK), (0x015#12, .ldDtVx), (0x018#12, .ldStVx), (0x01E#12, .addI), (0x029#12, .ldFont),
   (0x033#12, .bcd), (0x055#12, .store), (0x065#12, .load)]

/-- Level 1: the category table of sixteen entries (R74). -/
def level1 (c : Config) : Vector Entry 16 :=
  #v[.sub c.cat0Mask table0, .single .jp, .single .call, .single .seImm, .single .sneImm, .single .seReg, .single .ldImm,
     .single .addImm, .sub 0x00F#12 table8, .single .sneReg, .single .ldI, .single .jpV0, .single .rnd, .single .drw,
     .sub 0x0FF#12 tableE, .sub 0x0FF#12 tableF]

/-- "handler = category.single ?? category.table[low12(word) & category.mask]" (R76). -/
def resolve (e : Entry) (r : Addr) : Option Tag :=
  match e with
  | .single t => some t
  | .sub mask table => table.lookup (r &&& mask)

/-- `Decode(w)`: the handler's tag, or `none` for an unknown opcode (R76, R77). -/
def decodeTagUnder (c : Config) (w : Word) : Option Tag :=
  resolve ((level1 c)[(category w).toNat]'(category w).isLt) (payload w)

/-- The handler applied to its payload: the fields its rule names (R72, R73). -/
def Tag.instr (t : Tag) (r : Addr) : Instr :=
  match t with
  | .cls => .cls
  | .ret => .ret
  | .jp => .jp r
  | .call => .call r
  | .seImm => .seImm (fieldX r) (fieldNN r)
  | .sneImm => .sneImm (fieldX r) (fieldNN r)
  | .seReg => .seReg (fieldX r) (fieldY r)
  | .ldImm => .ldImm (fieldX r) (fieldNN r)
  | .addImm => .addImm (fieldX r) (fieldNN r)
  | .ldReg => .ldReg (fieldX r) (fieldY r)
  | .or => .or (fieldX r) (fieldY r)
  | .and => .and (fieldX r) (fieldY r)
  | .xor => .xor (fieldX r) (fieldY r)
  | .addReg => .addReg (fieldX r) (fieldY r)
  | .sub => .sub (fieldX r) (fieldY r)
  | .shr => .shr (fieldX r)
  | .subn => .subn (fieldX r) (fieldY r)
  | .shl => .shl (fieldX r)
  | .sneReg => .sneReg (fieldX r) (fieldY r)
  | .ldI => .ldI r
  | .jpV0 => .jpV0 r
  | .rnd => .rnd (fieldX r) (fieldNN r)
  | .drw => .drw (fieldX r) (fieldY r) (fieldN r)
  | .skp => .skp (fieldX r)
  | .sknp => .sknp (fieldX r)
  | .ldVxDt => .ldVxDt (fieldX r)
  | .ldVxK => .ldVxK (fieldX r)
  | .ldDtVx => .ldDtVx (fieldX r)
  | .ldStVx => .ldStVx (fieldX r)
  | .addI => .addI (fieldX r)
  | .ldFont => .ldFont (fieldX r)
  | .bcd => .bcd (fieldX r)
  | .store => .store (fieldX r)
  | .load => .load (fieldX r)

/-- The instruction a word stands for under a configuration, or `none` for an unknown opcode. -/
def decodeWordUnder (c : Config) (w : Word) : Option Instr :=
  (decodeTagUnder c w).map fun t => t.instr (payload w)

/-- The decoder of the standard configuration. -/
def decodeWord (w : Word) : Option Instr := decodeWordUnder Config.standard w

/-! ## Bytes (R70) -/

/-- Big-endian: the byte at the lower address holds `w[15:8]` (R54, R70). -/
def wordOfBytes (hi lo : Byte) : Word := hi ++ lo

/-- The two bytes of a word, the lower address first. -/
def bytesOfWord (w : Word) : List Byte := [w.extractLsb' 8 8, w.extractLsb' 0 8]

/-- Why bytes are no instruction. -/
inductive DecodeError where
  /-- fewer than two bytes: no word to decode -/
  | truncated
  /-- no handler for the masked key (R77) -/
  | unknownOpcode (w : Word)
  deriving DecidableEq, Repr

/-- The instruction at the head of a byte stream and the bytes after it. -/
def decodeBytes : List Byte → Except DecodeError (Instr × List Byte)
  | hi :: lo :: rest =>
    match decodeWord (wordOfBytes hi lo) with
    | some i => .ok (i, rest)
    | none => .error (.unknownOpcode (wordOfBytes hi lo))
  | _ => .error .truncated

/-- What the decoder reads from an instruction whose bits are `w` as `spec/opcode_table.json` numbers them: the bits above
`nbits` zero, the word laid out big-endian. -/
def decodeTableWord (nbits w : Nat) : Option Instr :=
  match decodeBytes (bytesOfWord (BitVec.ofNat 16 (w % 2 ^ nbits))) with
  | .ok (i, _) => some i
  | .error _ => none

/-! ## The encoder (R72, R83): ignored bits zero (R78) -/

/-- A category and its payload, bits 15..12 and 11..0. -/
def packWord (c : BitVec 4) (r : Addr) : Word := c ++ r

/-- A register and a byte, bits 11..8 and 7..0. -/
def packPayload (x : RegIdx) (nn : Byte) : Addr := x ++ nn

/-- Two nibbles, bits 7..4 and 3..0. -/
def packByte (y n : Nibble) : Byte := y ++ n

/-- Format A: an address (R72). -/
def formatA (c : BitVec 4) (nnn : Addr) : Word := packWord c nnn

/-- Formats I and S: a register and a byte, an immediate or a sub-opcode (R72). -/
def formatI (c : BitVec 4) (x : RegIdx) (nn : Byte) : Word := packWord c (packPayload x nn)

/-- Formats R and D: two registers and a nibble, a key, ignored bits or `N` (R72). -/
def formatR (c : BitVec 4) (x y : RegIdx) (n : Nibble) : Word := packWord c (packPayload x (packByte y n))

/-- The word of an instruction, written from the patterns of R83. -/
def encode : Instr → Word
  | .cls => 0x00E0#16
  | .ret => 0x00EE#16
  | .jp nnn => formatA 0x1#4 nnn
  | .call nnn => formatA 0x2#4 nnn
  | .seImm x nn => formatI 0x3#4 x nn
  | .sneImm x nn => formatI 0x4#4 x nn
  | .seReg x y => formatR 0x5#4 x y 0x0#4
  | .ldImm x nn => formatI 0x6#4 x nn
  | .addImm x nn => formatI 0x7#4 x nn
  | .ldReg x y => formatR 0x8#4 x y 0x0#4
  | .or x y => formatR 0x8#4 x y 0x1#4
  | .and x y => formatR 0x8#4 x y 0x2#4
  | .xor x y => formatR 0x8#4 x y 0x3#4
  | .addReg x y => formatR 0x8#4 x y 0x4#4
  | .sub x y => formatR 0x8#4 x y 0x5#4
  | .shr x => formatR 0x8#4 x 0x0#4 0x6#4
  | .subn x y => formatR 0x8#4 x y 0x7#4
  | .shl x => formatR 0x8#4 x 0x0#4 0xE#4
  | .sneReg x y => formatR 0x9#4 x y 0x0#4
  | .ldI nnn => formatA 0xA#4 nnn
  | .jpV0 nnn => formatA 0xB#4 nnn
  | .rnd x nn => formatI 0xC#4 x nn
  | .drw x y n => formatR 0xD#4 x y n
  | .skp x => formatI 0xE#4 x 0x9E#8
  | .sknp x => formatI 0xE#4 x 0xA1#8
  | .ldVxDt x => formatI 0xF#4 x 0x07#8
  | .ldVxK x => formatI 0xF#4 x 0x0A#8
  | .ldDtVx x => formatI 0xF#4 x 0x15#8
  | .ldStVx x => formatI 0xF#4 x 0x18#8
  | .addI x => formatI 0xF#4 x 0x1E#8
  | .ldFont x => formatI 0xF#4 x 0x29#8
  | .bcd x => formatI 0xF#4 x 0x33#8
  | .store x => formatI 0xF#4 x 0x55#8
  | .load x => formatI 0xF#4 x 0x65#8

/-- The bytes of an instruction, the lower address first (R54, R70). -/
def encodeBytes (i : Instr) : List Byte := bytesOfWord (encode i)

/-! ## The opcode map as masks (R83) -/

/-- The tag of an instruction. -/
def Instr.tag : Instr → Tag
  | .cls => .cls
  | .ret => .ret
  | .jp _ => .jp
  | .call _ => .call
  | .seImm _ _ => .seImm
  | .sneImm _ _ => .sneImm
  | .seReg _ _ => .seReg
  | .ldImm _ _ => .ldImm
  | .addImm _ _ => .addImm
  | .ldReg _ _ => .ldReg
  | .or _ _ => .or
  | .and _ _ => .and
  | .xor _ _ => .xor
  | .addReg _ _ => .addReg
  | .sub _ _ => .sub
  | .shr _ => .shr
  | .subn _ _ => .subn
  | .shl _ => .shl
  | .sneReg _ _ => .sneReg
  | .ldI _ => .ldI
  | .jpV0 _ => .jpV0
  | .rnd _ _ => .rnd
  | .drw _ _ _ => .drw
  | .skp _ => .skp
  | .sknp _ => .sknp
  | .ldVxDt _ => .ldVxDt
  | .ldVxK _ => .ldVxK
  | .ldDtVx _ => .ldDtVx
  | .ldStVx _ => .ldStVx
  | .addI _ => .addI
  | .ldFont _ => .ldFont
  | .bcd _ => .bcd
  | .store _ => .store
  | .load _ => .load

/-- The `match` column of R83. -/
def Tag.rowMatch : Tag → Word
  | .cls => 0x00E0#16
  | .ret => 0x00EE#16
  | .jp => 0x1000#16
  | .call => 0x2000#16
  | .seImm => 0x3000#16
  | .sneImm => 0x4000#16
  | .seReg => 0x5000#16
  | .ldImm => 0x6000#16
  | .addImm => 0x7000#16
  | .ldReg => 0x8000#16
  | .or => 0x8001#16
  | .and => 0x8002#16
  | .xor => 0x8003#16
  | .addReg => 0x8004#16
  | .sub => 0x8005#16
  | .shr => 0x8006#16
  | .subn => 0x8007#16
  | .shl => 0x800E#16
  | .sneReg => 0x9000#16
  | .ldI => 0xA000#16
  | .jpV0 => 0xB000#16
  | .rnd => 0xC000#16
  | .drw => 0xD000#16
  | .skp => 0xE09E#16
  | .sknp => 0xE0A1#16
  | .ldVxDt => 0xF007#16
  | .ldVxK => 0xF00A#16
  | .ldDtVx => 0xF015#16
  | .ldStVx => 0xF018#16
  | .addI => 0xF01E#16
  | .ldFont => 0xF029#16
  | .bcd => 0xF033#16
  | .store => 0xF055#16
  | .load => 0xF065#16

/-- The `mask` column of R83. -/
def Tag.rowMask : Tag → Word
  | .cls | .ret => 0xF0FF#16
  | .jp | .call | .seImm | .sneImm | .seReg | .ldImm | .addImm | .sneReg | .ldI | .jpV0 | .rnd | .drw => 0xF000#16
  | .ldReg | .or | .and | .xor | .addReg | .sub | .shr | .subn | .shl => 0xF00F#16
  | .skp | .sknp | .ldVxDt | .ldVxK | .ldDtVx | .ldStVx | .addI | .ldFont | .bcd | .store | .load => 0xF0FF#16

end Sys2Proof
end

