-- ==== Sys2Proof/Machine/State.lean ====
section
/-! DEFINITION. The state of the core (`10_state.md` R20), the reasons a cycle can stop (`60_exceptions.md` R220) and the state
after reset (R35, R250). Plain data; every operation on it is in Ops.lean and the files after it. -/

namespace Sys2Proof.Machine

/-- What can happen next to a loaded machine (`60_exceptions.md` R230, D21): each is atomic and any order is admitted (R5). -/
inductive Event where
  /-- the cadence driver asks for one fetch-decode-execute cycle (R100) -/
  | cycle
  /-- the cadence driver ticks the general timer (R232) -/
  | tickGeneral
  /-- the cadence driver ticks the sound timer (R233) -/
  | tickSound
  /-- the input source reports a press of key `k` (R185) -/
  | keyEvent (k : KeyCode)
  /-- reinitialisation (R36, R250) -/
  | reset
  deriving DecidableEq, Repr

/-- The five failures of a cycle, a closed list (R220). A failed cycle changes no state and the first failure is the end of
the run (R226, R227; log 11). Each is the spec's own outcome, so each is SAFE: no claim about a next state rests on it. -/
inductive Fault where
  /-- code 1: the decoder found no handler for the fetched word (R77, R221). Safe. -/
  | unknownOpcode (w : Word)
  /-- code 2: the fetch, `DXYN`, `FX33`, `FX55`, `FX65` or the loader left 0..4095; the lowest such address (R52, R222). Safe. -/
  | outOfRange (a : Nat)
  /-- code 3: `00EE` on an empty call stack (R223). Safe. -/
  | stackUnderflow
  /-- code 4: `FX29`, always (R202, R224). Safe. -/
  | unimplemented (w : Word)
  /-- code 5: `2NNN` on a full call stack (R225, D5). Safe. -/
  | stackOverflow
  deriving DecidableEq, Repr

/-- What the model declines to answer. No cycle of the standard configuration ends in one. -/
inductive Refusal where
  /-- an instruction without a meaning: no arm of `exec` answers it. Safe. -/
  | notModelled (mnemonic : String)
  /-- raised by `FX29` under `HAS_FONT = true` only: no font table is in any source (R202, U21; log 20). Safe. -/
  | fontTableUnspecified
  /-- raised by `launch` on an image longer than 3584 bytes (R62, D23, U19; log 19). Safe. -/
  | imageTooLong
  deriving DecidableEq, Repr

/-- The cells of memory that do not read 0, by rising address (R29; log 15). -/
abbrev Memory := List Host.Cell

/-- The display buffer: 32 rows of 64 one-bit pixels, `fb[y][x]`, `true` is on (R20, R32). -/
abbrev Framebuffer := Vector (Vector Bool 64) 32

/-- The complete state of the core (R20), the output `display_dirty` (R167), and, last, the model's own record of the
environment: the moves still to come and how many inputs were taken (log 1, log 4). -/
structure State where
  /-- `V[0..15]`, general registers; `V[15]` is `VF` (R21 to R24) -/
  v : Vector Byte 16
  /-- `I`, the address register (R25, R26): `I_WIDTH` bits of the sixteen, at the default 12 the others are 0 (log 7) -/
  i : Word
  /-- `pc`, the program counter (R27, R28) -/
  pc : Word
  /-- `MEM[0..4095]` (R29) -/
  mem : Memory
  /-- `STACK`, return addresses, most recent last (R30) -/
  stack : List Addr
  /-- `DT`, the general timer (R31) -/
  dt : Byte
  /-- `ST`, the audio timer (R31) -/
  st : Byte
  /-- `FB`, the display buffer (R32) -/
  fb : Framebuffer
  /-- `WAIT`, the key-wait suspension and the register that receives the key (R33) -/
  wait : Option RegIdx
  /-- `display_dirty`: the last completed cycle executed `00E0` or `DXYN` (R167; log 5) -/
  displayDirty : Bool
  /-- MODEL'S OWN: the environment's next moves; when none is listed the next move is a cycle (log 1) -/
  schedule : List Event
  /-- MODEL'S OWN: random bytes taken so far, naming the next free value (log 2) -/
  randomDraws : Nat
  /-- MODEL'S OWN: key levels sampled so far, naming the next free value (log 3) -/
  keySamples : Nat
  deriving DecidableEq, Repr

/-- One move's outcome. -/
abbrev Result := Host.Outcome State Fault Refusal

/-- The machine right after reset (R35, R250, R251): `pc` at `0x200`, everything else zero, empty or off. The values other than
memory and `pc` are the spec's D15 (log 8); the last four fields are the model's choice (log 1, 4, 5). -/
def State.reset : State where
  v := Vector.replicate 16 0#8
  i := 0#16
  pc := Config.pcReset
  mem := []
  stack := []
  dt := 0#8
  st := 0#8
  fb := Vector.replicate 32 (Vector.replicate 64 false)
  wait := none
  displayDirty := false
  schedule := []
  randomDraws := 0
  keySamples := 0

end Sys2Proof.Machine
end

