-- ==== Sys2Proof/Machine/Ops.lean ====
section
/-! DEFINITION. The named operations over the state: the primitives of `00_scope.md` R8, "the only ways a rule touches
state", the one way a cycle completes and the one way it fails. -/

namespace Sys2Proof.Machine

/-! ## General registers (R21, R22) -/

/-- `V[x]`. -/
def State.reg (s : State) (x : RegIdx) : Byte := s.v[x.toNat]'x.isLt

/-- `V[x]` becomes the byte `b`. -/
def State.putReg (s : State) (x : RegIdx) (b : Byte) : State := { s with v := s.v.set x.toNat b x.isLt }

/-- `V[x] <- n`: stores `n mod 256` for every integer `n`, and never fails (R22). -/
def State.writeReg (s : State) (x : RegIdx) (n : Int) : State := s.putReg x (BitVec.ofInt 8 n)

/-! ## Address register, program counter, timers (R26, R27, R31) -/

/-- `I <- n`: keeps the low `I_WIDTH` bits of `n` (R26, D4; log 7). -/
def State.writeIUnder (c : Config) (s : State) (n : Int) : State :=
  { s with i := BitVec.ofInt 16 (n % ((2 ^ c.iWidth : Nat) : Int)) }

/-- `I <- n` of the standard configuration: stores `n mod 4096` (R26). -/
def State.writeI (s : State) (n : Int) : State := s.writeIUnder Config.standard n

/-- `pc <- n`: stores `n mod 65536` (R27, D25; log 17). -/
def State.writePc (s : State) (n : Nat) : State := { s with pc := BitVec.ofNat 16 n }

/-- `DT <- n`: stores `n mod 256` (R31). -/
def State.writeDt (s : State) (n : Int) : State := { s with dt := BitVec.ofInt 8 n }

/-- `ST <- n`: stores `n mod 256` (R31). -/
def State.writeSt (s : State) (n : Int) : State := { s with st := BitVec.ofInt 8 n }

/-! ## Memory cells (R29, R51; log 15) -/

/-- What a cell that no entry lists holds: the reset contents (R29, R35). -/
def unlistedByte : Byte := 0#8

/-- The cell at address `a`. -/
def Memory.read : Memory → Nat → Byte
  | [], _ => unlistedByte
  | (k, b) :: m, a => if a = k then b else Memory.read m a

/-- The memory without an entry for `a`. -/
def Memory.withoutCell (m : Memory) (a : Nat) : Memory := m.filter fun c => decide (c.1 ≠ a)

/-- The memory with an entry for `a` in its place, where it lists none. -/
def Memory.insertCell : Memory → Nat → Byte → Memory
  | [], a, b => [(a, b)]
  | (k, c) :: m, a, b => if a < k then (a, b) :: (k, c) :: m else (k, c) :: Memory.insertCell m a b

/-- The cell at address `a` becomes `b`, in canonical form. -/
def Memory.write (m : Memory) (a : Nat) (b : Byte) : Memory :=
  if b = unlistedByte then m.withoutCell a else (m.withoutCell a).insertCell a b

/-- Consecutive cells from `a` become `bs` (R66). -/
def Memory.writeBytes : Memory → Nat → List Byte → Memory
  | m, _, [] => m
  | m, a, b :: bs => Memory.writeBytes (m.write a b) (a + 1) bs

/-- The canonical form: addresses strictly rising and inside 0..4095 (R29), no entry equal to what an unlisted cell reads. -/
abbrev Memory.wf (m : Memory) : Prop :=
  m.Pairwise (fun p q => p.1 < q.1) ∧ ∀ c ∈ m, c.2 ≠ unlistedByte ∧ c.1 < 4096

/-! ## Range access (R8, R52) -/

/-- The lowest of the `n` addresses from `a` that is outside 0..4095, if there is one (R52, R222): the whole range is checked
before a cell is touched (D9), and an empty range holds no such address (D17). -/
def lowestOutside (a n : Nat) : Option Nat :=
  if n = 0 ∨ a + n ≤ 4096 then none else if 4096 ≤ a then some a else some 4096

/-- `MemRead(a, n)`: the `n` bytes from `a`, or `OutOfRange`. -/
def State.memRead (s : State) (a n : Nat) : Except Fault (List Byte) :=
  match lowestOutside a n with
  | some bad => .error (.outOfRange bad)
  | none => .ok ((List.range n).map fun k => s.mem.read (a + k))

/-- The range write of bytes: all of them, or `OutOfRange` and none. -/
def State.memStore (s : State) (a : Nat) (bs : List Byte) : Except Fault State :=
  match lowestOutside a bs.length with
  | some bad => .error (.outOfRange bad)
  | none => .ok { s with mem := s.mem.writeBytes a bs }

/-- `MemWrite(a, n, ns)`: the integers of `ns`, each mod 256 (R51), to consecutive cells from `a`. -/
def State.memWrite (s : State) (a : Nat) (ns : List Int) : Except Fault State :=
  s.memStore a (ns.map (BitVec.ofInt 8))

/-! ## Call stack (R30) -/

/-- `Push(a)`: appends `a mod 4096`, or `StackOverflow` when the stack holds `STACK_DEPTH` entries (R30, R225). -/
def State.pushUnder (c : Config) (s : State) (a : Nat) : Except Fault State :=
  if c.stackDepth = some s.stack.length then .error .stackOverflow
  else .ok { s with stack := s.stack ++ [BitVec.ofNat 12 a] }

/-- `Push` of the standard configuration. -/
def State.push (s : State) (a : Nat) : Except Fault State := s.pushUnder Config.standard a

/-- `Pop()`: removes and returns the most recent entry, or `StackUnderflow` (R30, R223). -/
def State.pop (s : State) : Except Fault (Addr × State) :=
  match s.stack.getLast? with
  | none => .error .stackUnderflow
  | some a => .ok (a, { s with stack := s.stack.dropLast })

/-! ## How a cycle ends (R100, R103, R226) -/

/-- TAKING AN EXCEPTION, the one operation for it: the cycle ends with the failure reported to its caller; "nothing else
happens", no register is saved, no mode changes, there is no vector (R226). There is no return from it (R227). -/
def raise (f : Fault) : Result := .fault f

/-- Goes on with a primitive's result, or raises its failure: no state has changed then (R103). -/
def orRaise {α : Type} (r : Except Fault α) (k : α → Result) : Result :=
  match r with
  | .error f => raise f
  | .ok x => k x

/-- The cycle ends `Done` and `pc <- next_pc` (R100, step 4); it drew nothing, so `display_dirty` is down (R167; log 5). -/
def State.retire (s : State) (nextPc : Nat) : Result :=
  .next { s.writePc nextPc with displayDirty := false }

/-- The same for a cycle that executed `00E0` or `DXYN`: `display_dirty` is up (R167). -/
def State.retireDrawn (s : State) (nextPc : Nat) : Result :=
  .next { s.writePc nextPc with displayDirty := true }

/-! ## The fetch (R54, R100) -/

/-- The word two bytes make, big-endian; the fetch always reads two. -/
def wordOfFetched : List Byte → Word
  | hi :: lo :: _ => wordOfBytes hi lo
  | _ => 0#16

/-- Step 1 of the cycle: the word at `pc`, whatever the parity of `pc` (R56), or `OutOfRange`. -/
def State.fetch (s : State) : Except Fault Word :=
  (s.memRead s.pc.toNat 2).map wordOfFetched

/-- The state whose next cycle fetches `w`: `w` at `pc` big-endian, and the core running with no environment move before its
next cycle (log 18). Where `pc` names no two cells the memory stays as it is. -/
def State.placeWord (s : State) (w : Word) : State :=
  let running := { s with wait := none, schedule := [] }
  match running.memStore s.pc.toNat (bytesOfWord w) with
  | .ok t => t
  | .error _ => running

end Sys2Proof.Machine
end

