-- ==== Sys2Proof/Machine/Operands.lean ====
section
/-! DEFINITION. The operand forms (`00_scope.md` R9, `30_encoding.md` R72, R73, `44_address_memory.md` R206): register, byte,
address and nibble fields come cut from the decoder; here are the values instructions read through them, the runs of registers,
the effective address, the two environment inputs and the targets of a skip. -/

namespace Sys2Proof.Machine

/-! ## Effective address (R53, R206) -/

/-- `I`, the base of every data access: the exact integer; offsets add without truncation (R53). -/
def State.base (s : State) : Nat := s.i.toNat

/-! ## Next program counter (R101, R102) -/

/-- `pc + 2`. -/
def State.nextSequential (s : State) : Nat := s.pc.toNat + 2

/-- A skip: `pc + 4` when its condition holds, else `pc + 2` (R102). -/
def State.nextSkip (s : State) (cond : Bool) : Nat := if cond then s.pc.toNat + 4 else s.pc.toNat + 2

/-! ## Runs of registers (R204, R205, D27) -/

/-- `V[0], V[1], ..., V[x]`: the run ends at the register the field names (D27). -/
def State.regsUpTo (s : State) (x : RegIdx) : List Byte :=
  (List.range (x.toNat + 1)).map fun k => s.reg (BitVec.ofNat 4 k)

/-- Consecutive registers from number `k` become `bs`. -/
def State.loadRegs : State → Nat → List Byte → State
  | s, _, [] => s
  | s, k, b :: bs => State.loadRegs (s.putReg (BitVec.ofNat 4 k) b) (k + 1) bs

/-! ## Decimal digits (R203) -/

/-- Hundreds, tens, ones. -/
def decimalDigits (b : Byte) : List Int :=
  [((b.toNat / 100 : Nat) : Int), ((b.toNat / 10 % 10 : Nat) : Int), ((b.toNat % 10 : Nat) : Int)]

/-! ## Environment inputs (R37, R38) -/

/-- `RandByte()`: the byte the random source supplies next (log 2). -/
def State.randByte (s : State) : Byte := Config.randomByte s.randomDraws

/-- One random byte has been taken (R38: once per `CXNN`). -/
def State.drawn (s : State) : State := { s with randomDraws := s.randomDraws + 1 }

/-- The key predicate on a register's value: the input source's answer for a code 0..15 (log 3), `KEY_OOR` above (R37, R180,
D12). -/
def State.keyPressedUnder (c : Config) (s : State) (k : Byte) : Bool :=
  if k.toNat ≤ 15 then Config.keyLevel s.keySamples (k.extractLsb' 0 4) else c.keyOor

/-- The input source has been asked once; for a code above 15 "the core does not consult" it (R37). -/
def State.sampled (s : State) (k : Byte) : State :=
  if k.toNat ≤ 15 then { s with keySamples := s.keySamples + 1 } else s

end Sys2Proof.Machine
end

