-- ==== Sys2Proof/Machine/AddressMemory.lean ====
section
/-! DEFINITION. Address register and memory instructions (`44_address_memory.md` R200 to R206). None of the three that access
memory changes `I`. -/

namespace Sys2Proof.Machine

/-- `ANNN` LD I, addr (R200, D3; log 14). -/
def ldIUnder (c : Config) (nnn : Addr) (s : State) : Result := (s.writeIUnder c nnn.toNat).retire s.nextSequential

/-- `ANNN` LD I, addr into the 12-bit register (R200, D4). -/
def execLdI (nnn : Addr) (s : State) : Result := ldIUnder Config.standard nnn s

/-- `FX1E` ADD I, Vx (R201): wraps at `I_WIDTH` bits, no flag. -/
def addIUnder (c : Config) (x : RegIdx) (s : State) : Result :=
  (s.writeIUnder c (s.i.toNat + (s.reg x).toNat)).retire s.nextSequential

/-- `FX1E` ADD I, Vx, wrapping at 12 bits (R201, D4). -/
def execAddI (x : RegIdx) (s : State) : Result := addIUnder Config.standard x s

/-- `FX29` LD F, Vx (R202): always raises `Unimplemented`; with a font table the spec gives it no meaning (U21; log 20). -/
def ldFontUnder (c : Config) (x : RegIdx) (_s : State) : Result :=
  if c.hasFont then .refused .fontTableUnspecified else raise (.unimplemented (encode (.ldFont x)))

/-- `FX29` LD F, Vx without a font table (R202, R224, D16). -/
def execLdFont (x : RegIdx) (s : State) : Result := ldFontUnder Config.standard x s

/-- `FX33` LD B, Vx (R203). -/
def execBcd (x : RegIdx) (s : State) : Result :=
  orRaise (s.memWrite s.base (decimalDigits (s.reg x))) fun t => t.retire s.nextSequential

/-- `FX55` LD [I], Vx (R204). -/
def execStore (x : RegIdx) (s : State) : Result :=
  orRaise (s.memStore s.base (s.regsUpTo x)) fun t => t.retire s.nextSequential

/-- `FX65` LD Vx, [I] (R205). -/
def execLoad (x : RegIdx) (s : State) : Result :=
  orRaise (s.memRead s.base (x.toNat + 1)) fun bs => (s.loadRegs 0 bs).retire s.nextSequential

end Sys2Proof.Machine
end

