-- ==== Sys2Proof/Machine/ControlFlow.lean ====
section
/-! DEFINITION. Control transfer (`40_cycle_and_control_flow.md` R101 to R111): each meaning states its `next_pc`. -/

namespace Sys2Proof.Machine

/-- `00EE` RET (R104): to the popped address plus `RET_OFFSET`. -/
def retUnder (c : Config) (s : State) : Result :=
  orRaise s.pop fun p => p.2.retire (p.1.toNat + c.retOffset)

/-- `00EE` RET, landing on the popped address itself (R104, D6). -/
def execRet (s : State) : Result := retUnder Config.standard s

/-- `1NNN` JP (R105). -/
def execJp (nnn : Addr) (s : State) : Result := s.retire nnn.toNat

/-- `2NNN` CALL (R106): pushes the address of the call itself. -/
def callUnder (c : Config) (nnn : Addr) (s : State) : Result :=
  orRaise (s.pushUnder c s.pc.toNat) fun t => t.retire nnn.toNat

/-- `2NNN` CALL with the sixteen-entry stack (R106, D5). -/
def execCall (nnn : Addr) (s : State) : Result := callUnder Config.standard nnn s

/-- `3XNN` SE Vx, byte (R107). -/
def execSeImm (x : RegIdx) (nn : Byte) (s : State) : Result := s.retire (s.nextSkip (s.reg x == nn))

/-- `4XNN` SNE Vx, byte (R108). -/
def execSneImm (x : RegIdx) (nn : Byte) (s : State) : Result := s.retire (s.nextSkip (s.reg x != nn))

/-- `5XY0` SE Vx, Vy (R109). -/
def execSeReg (x y : RegIdx) (s : State) : Result := s.retire (s.nextSkip (s.reg x == s.reg y))

/-- `9XY0` SNE Vx, Vy (R110). -/
def execSneReg (x y : RegIdx) (s : State) : Result := s.retire (s.nextSkip (s.reg x != s.reg y))

/-- `BNNN` JP V0, addr (R111): the sum is exact, not reduced modulo 4096. -/
def execJpV0 (nnn : Addr) (s : State) : Result := s.retire ((s.reg 0#4).toNat + nnn.toNat)

end Sys2Proof.Machine
end

