-- ==== Sys2Proof/Machine/Compositor.lean ====
section
/-! DEFINITION. The sprite compositor and its collision detector (`42_display.md` R162 to R165), as the loops of R162. -/

namespace Sys2Proof.Machine

/-- `FB[y][x]`; a position outside the grid reads off (only positions inside are ever asked for by R162). -/
def Framebuffer.pixel (fb : Framebuffer) (x y : Nat) : Bool :=
  if h : x < 64 ∧ y < 32 then (fb[y]'h.2)[x]'h.1 else false

/-- `FB[y][x] <- b` inside the grid. -/
def Framebuffer.setPixel (fb : Framebuffer) (x y : Nat) (b : Bool) : Framebuffer :=
  if h : x < 64 ∧ y < 32 then fb.set y ((fb[y]'h.2).set x b h.1) h.2 else fb

/-- Bit `col` of a sprite row, "most-significant bit first": `(b >> (7 - col)) & 1`. -/
def spriteBit (b : Byte) (col : Nat) : Bool := b.getLsbD (7 - col)

/-- The body of R162's inner loop: the pixel at `(px, py)` is XORed with `bit`; off the grid nothing happens (R163); a lit
pixel switched off is a collision (R164). -/
def drawBit (px py : Nat) (bit : Bool) (acc : Framebuffer × Bool) : Framebuffer × Bool :=
  if px ≤ 63 ∧ py ≤ 31 then
    (acc.1.setPixel px py (acc.1.pixel px py ^^ bit), acc.2 || (acc.1.pixel px py && bit))
  else acc

/-- The inner loop: columns 0 to 7 of one sprite row. -/
def drawRow (x0 py : Nat) (b : Byte) (acc : Framebuffer × Bool) : Framebuffer × Bool :=
  (List.range 8).foldl (fun acc col => drawBit (x0 + col) py (spriteBit b col) acc) acc

/-- The outer loop: the rows "stack vertically" from `py` on. -/
def drawRows (x0 : Nat) : Nat → List Byte → Framebuffer × Bool → Framebuffer × Bool
  | _, [], acc => acc
  | py, b :: bs, acc => drawRows x0 (py + 1) bs (drawRow x0 py b acc)

/-- `DrawSprite(bs, x0, y0)`: the new picture and whether a lit pixel was switched off. Coordinates are exact integers, no
wrap (R162, R163, D18). -/
def drawSprite (fb : Framebuffer) (bs : List Byte) (x0 y0 : Nat) : Framebuffer × Bool :=
  drawRows x0 y0 bs (fb, false)

/-- All pixels off (R160). -/
def clearedFramebuffer : Framebuffer := Vector.replicate 32 (Vector.replicate 64 false)

end Sys2Proof.Machine
end

