-- ==== Sys2Proof/Machine/Flags.lean ====
section
/-! DEFINITION. Every value `VF` takes as a side effect (`10_state.md` R23, `41_load_alu.md` R130): each 0 or 1, each computed
from the exact result. -/

namespace Sys2Proof.Machine

/-- A flag as the byte `VF` receives. -/
def flagByte (b : Bool) : Byte := if b then 1#8 else 0#8

/-- Carry of an exact sum: 1 when it exceeds 255 (R130, R138). -/
def carryFlag (sum : Int) : Byte := flagByte (decide (255 < sum))

/-- No borrow of an exact difference: 0 when it is negative, else 1 (R130, R139, R141). -/
def noBorrowFlag (diff : Int) : Byte := flagByte (decide (0 ≤ diff))

/-- Bit 0 before a right shift (R140). -/
def lowBitFlag (b : Byte) : Byte := flagByte (b.getLsbD 0)

/-- Bit 7 before a left shift (R142). -/
def highBitFlag (b : Byte) : Byte := flagByte (b.getLsbD 7)

/-- Collision of a draw (R161, R164). -/
def collisionFlag (c : Bool) : Byte := flagByte c

/-- Result first, then flag, as add and subtract list them (R131, D8; log 9). -/
def State.writeResultThenFlag (s : State) (x : RegIdx) (result : Int) (flag : Byte) : State :=
  (s.writeReg x result).putReg flagReg flag

end Sys2Proof.Machine
end

