-- ==== Sys2Proof/Machine/Display.lean ====
section
/-! DEFINITION. The display instructions (`42_display.md`). -/

namespace Sys2Proof.Machine

/-- `00E0` CLS (R160). -/
def execCls (s : State) : Result :=
  State.retireDrawn { s with fb := clearedFramebuffer } s.nextSequential

/-- `DXYN` DRW (R161): coordinates and sprite are read before anything is written. -/
def execDrw (x y : RegIdx) (n : Nibble) (s : State) : Result :=
  orRaise (s.memRead s.base n.toNat) fun bs =>
    let drawn := drawSprite s.fb bs (s.reg x).toNat (s.reg y).toNat
    State.retireDrawn (State.putReg { s with fb := drawn.1 } flagReg (collisionFlag drawn.2)) s.nextSequential

end Sys2Proof.Machine
end

