-- ==== Sys2Proof/Machine/InputTimers.lean ====
section
/-! DEFINITION. Key and timer instructions (`43_input_timers.md` R180 to R186). -/

namespace Sys2Proof.Machine

/-- `EX9E` SKP Vx (R180). -/
def skpUnder (c : Config) (x : RegIdx) (s : State) : Result :=
  (s.sampled (s.reg x)).retire (s.nextSkip (s.keyPressedUnder c (s.reg x)))

/-- `EX9E` SKP Vx, a code above 15 counting as not pressed (R180, D12). -/
def execSkp (x : RegIdx) (s : State) : Result := skpUnder Config.standard x s

/-- `EXA1` SKNP Vx (R181). -/
def sknpUnder (c : Config) (x : RegIdx) (s : State) : Result :=
  (s.sampled (s.reg x)).retire (s.nextSkip (!s.keyPressedUnder c (s.reg x)))

/-- `EXA1` SKNP Vx, a code above 15 counting as not pressed (R181, D12). -/
def execSknp (x : RegIdx) (s : State) : Result := sknpUnder Config.standard x s

/-- `FX07` LD Vx, DT (R182). -/
def execLdVxDt (x : RegIdx) (s : State) : Result := (s.putReg x s.dt).retire s.nextSequential

/-- `FX0A` LD Vx, K (R184): the core suspends, `pc` stays at this instruction; `key_event` completes it (R185). -/
def execLdVxK (x : RegIdx) (s : State) : Result := .next { s with wait := some x, displayDirty := false }

/-- `FX15` LD DT, Vx (R183). -/
def execLdDtVx (x : RegIdx) (s : State) : Result := (s.writeDt (s.reg x).toNat).retire s.nextSequential

/-- `FX18` LD ST, Vx (R186). -/
def execLdStVx (x : RegIdx) (s : State) : Result := (s.writeSt (s.reg x).toNat).retire s.nextSequential

end Sys2Proof.Machine
end

