-- ==== Sys2Proof/Machine/LoadAlu.lean ====
section
/-! DEFINITION. Register loads, arithmetic, logic, shifts, random (`41_load_alu.md` R130 to R143): computed exactly in the
integers, narrowed by the register write. Statements run in the order the rules list them (R131; log 9). -/

namespace Sys2Proof.Machine

/-- `6XNN` LD Vx, byte (R132). -/
def execLdImm (x : RegIdx) (nn : Byte) (s : State) : Result := (s.putReg x nn).retire s.nextSequential

/-- `7XNN` ADD Vx, byte (R133): no flag. -/
def execAddImm (x : RegIdx) (nn : Byte) (s : State) : Result :=
  (s.writeReg x ((s.reg x).toNat + nn.toNat)).retire s.nextSequential

/-- `8XY0` LD Vx, Vy (R134). -/
def execLdReg (x y : RegIdx) (s : State) : Result := (s.putReg x (s.reg y)).retire s.nextSequential

/-- `8XY1` OR (R135): no flag. -/
def execOr (x y : RegIdx) (s : State) : Result := (s.putReg x (s.reg x ||| s.reg y)).retire s.nextSequential

/-- `8XY2` AND (R136): no flag. -/
def execAnd (x y : RegIdx) (s : State) : Result := (s.putReg x (s.reg x &&& s.reg y)).retire s.nextSequential

/-- `8XY3` XOR (R137): no flag. -/
def execXor (x y : RegIdx) (s : State) : Result := (s.putReg x (s.reg x ^^^ s.reg y)).retire s.nextSequential

/-- `8XY4` ADD Vx, Vy (R138): the sum, then the carry. -/
def execAddReg (x y : RegIdx) (s : State) : Result :=
  let sum : Int := (s.reg x).toNat + (s.reg y).toNat
  (s.writeResultThenFlag x sum (carryFlag sum)).retire s.nextSequential

/-- The shared body of the two subtracts: `a - b` into `V[x]`, then the no-borrow flag (R139, R141). -/
def subtractInto (x : RegIdx) (a b : Byte) (s : State) : Result :=
  let diff : Int := (a.toNat : Int) - b.toNat
  (s.writeResultThenFlag x diff (noBorrowFlag diff)).retire s.nextSequential

/-- `8XY5` SUB Vx, Vy (R139). -/
def execSub (x y : RegIdx) (s : State) : Result := subtractInto x (s.reg x) (s.reg y) s

/-- `8XY6` SHR Vx (R140): the flag, then the shift of what `V[x]` then holds (D8). -/
def execShr (x : RegIdx) (s : State) : Result :=
  let flagged := s.putReg flagReg (lowBitFlag (s.reg x))
  (flagged.putReg x (flagged.reg x >>> 1)).retire s.nextSequential

/-- `8XY7` SUBN Vx, Vy (R141): the direction is `SUBN_REVERSED`'s. -/
def subnUnder (c : Config) (x y : RegIdx) (s : State) : Result :=
  if c.subnReversed then subtractInto x (s.reg y) (s.reg x) s else subtractInto x (s.reg x) (s.reg y) s

/-- `8XY7` SUBN Vx, Vy, in the direction of SUB (R141, D7). -/
def execSubn (x y : RegIdx) (s : State) : Result := subnUnder Config.standard x y s

/-- `8XYE` SHL Vx (R142): the flag, then the shift of what `V[x]` then holds, stored mod 256 (D8). -/
def execShl (x : RegIdx) (s : State) : Result :=
  let flagged := s.putReg flagReg (highBitFlag (s.reg x))
  (flagged.writeReg x ((flagged.reg x).toNat * 2)).retire s.nextSequential

/-- `CXNN` RND Vx, byte (R143): one byte of the random source, masked. -/
def execRnd (x : RegIdx) (nn : Byte) (s : State) : Result :=
  (s.drawn.putReg x (s.randByte &&& nn)).retire s.nextSequential

end Sys2Proof.Machine
end

