-- ==== Sys2Proof/Machine/Events.lean ====
section
/-! DEFINITION. The external events (`60_exceptions.md` R230) and the boot (`70_reset_and_hazards.md` R253), each atomic and
outside any cycle. -/

namespace Sys2Proof.Machine

/-- A timer's "floor rule": down by 1 but never below 0 (R232). -/
def tickedDown (t : Byte) : Byte := if t = 0#8 then t else t - 1#8

/-- `tick_general` (R232), running or suspended alike (R235). -/
def tickGeneral (s : State) : State := { s with dt := tickedDown s.dt }

/-- `tick_sound` (R233), running or suspended alike (R235). -/
def tickSound (s : State) : State := { s with st := tickedDown s.st }

/-- `key_event(k)` (R185): completes the suspended `FX0A`; ignored and not queued while running (D13). -/
def keyEvent (k : KeyCode) (s : State) : State :=
  match s.wait with
  | some x => State.writePc { s.putReg x (k.zeroExtend 8) with wait := none } s.nextSequential
  | none => s

/-- `reset` (R36, R250): the state of R35 from any state. What stands outside the core stays: the environment's next moves and
the inputs it has given (log 1, log 4). -/
def resetCore (s : State) : State :=
  { State.reset with schedule := s.schedule, randomDraws := s.randomDraws, keySamples := s.keySamples }

/-- The loader's one range write of the image at `0x200` (R62). -/
def loadImage (image : List Byte) (s : State) : Except Fault State := s.memStore Config.pcReset.toNat image

/-- Boot: reset, then the load; the first cycle comes next (R253). An image that does not fit is refused (R62, D23; log 19). -/
def launch (image : List Byte) : Result :=
  match loadImage image State.reset with
  | .ok s => .next s
  | .error _ => .refused .imageTooLong

end Sys2Proof.Machine
end

