-- ==== Sys2Proof/Machine/Cycle.lean ====
section
/-! DEFINITION. The fetch-decode-execute cycle (`40_cycle_and_control_flow.md` R100) and one move of the machine: the next event
of the environment, or a cycle. -/

namespace Sys2Proof.Machine

/-- `Cycle()` (R100) over a decoder and the handlers: suspended, it changes nothing; else fetch, decode, run (R228: failures in
that order). The handler writes `pc` itself (R101), or suspends. -/
def cycleWith (decode : Word → Option Instr) (run : Instr → State → Result) (s : State) : Result :=
  match s.wait with
  | some _ => .next s
  | none =>
    orRaise s.fetch fun w =>
      match decode w with
      | some i => run i s
      | none => raise (.unknownOpcode w)

/-- One cycle of the standard configuration. -/
def cycle (s : State) : Result := cycleWith decodeWord exec s

/-- The instruction the next cycle would fetch, if there is one. -/
def State.fetchedInstr (s : State) : Option Instr :=
  match s.fetch with
  | .ok w => decodeWord w
  | .error _ => none

/-- What one event does, given what a cycle does. -/
def actWith (runCycle : State → Result) (e : Event) (s : State) : Result :=
  match e with
  | .cycle => runCycle s
  | .tickGeneral => .next (tickGeneral s)
  | .tickSound => .next (tickSound s)
  | .keyEvent k => .next (keyEvent k s)
  | .reset => .next (resetCore s)

/-- One event (R230). -/
def act (e : Event) (s : State) : Result := actWith cycle e s

/-- The next event: the first one the environment lists, taken off its list; a cycle when it lists none (log 1). -/
def advanceWith (runCycle : State → Result) (s : State) : Result :=
  match s.schedule with
  | [] => runCycle s
  | e :: rest => actWith runCycle e { s with schedule := rest }

/-- One move of the standard configuration. -/
def advance (s : State) : Result := advanceWith cycle s

end Sys2Proof.Machine
end

