-- ==== Sys2Proof/Machine/Step.lean ====
section
/-! DEFINITION. The step of the machine (`00_scope.md` R11), and the state whose next step runs a given instruction. -/

namespace Sys2Proof.Machine

/-- One move: a cycle, or the environment's next event. `Done` and `Suspended` (R11) are both a next state; `State.report` tells
them apart (log 10). -/
def step (s : State) : Host.Outcome State Fault Refusal := Sys2Proof.Machine.advance s

/-- `s` with the instruction whose bits are `w`, numbered as `spec/opcode_table.json` numbers them, at `pc` (log 18). -/
def State.withFetchWord (s : State) (nbits w : Nat) : State := s.placeWord (BitVec.ofNat 16 (w % 2 ^ nbits))

end Sys2Proof.Machine
end

