-- ==== Sys2Proof/Machine/EndOfRun.lean ====
section
/-! DEFINITION. The end of a run. No instruction halts the machine and no step depends on what is defined here; "a model must
define the end of a run itself" (`00_scope.md` R12), and this one takes the spec's convention `END_IS_SELF_JUMP`
(`70_reset_and_hazards.md` R261, D22; log 25). -/

namespace Sys2Proof.Machine

/-- The two ends of a run (R261). A suspension that no key press ends is no end: a later press may always come (R39). -/
inductive RunEnd where
  /-- the normal end: a jump to its own address -/
  | selfJump
  /-- the end "gone wrong": the next move fails (R227) -/
  | failed (f : Fault)
  deriving DecidableEq, Repr

/-- "`pc` holds the address of a word `1NNN` with `NNN = pc` and `WAIT = none`" (R261). -/
def State.atSelfJump (s : State) : Bool :=
  s.wait == none &&
    match s.fetchedInstr with
    | some (.jp nnn) => nnn.toNat == s.pc.toNat
    | _ => false

/-- The end the run has come to in this state, if it has. -/
def State.runEnd (s : State) : Option RunEnd :=
  if s.atSelfJump then some .selfJump
  else
    match step s with
    | .fault f => some (.failed f)
    | .next _ => none
    | .refused _ => none

/-- The end the run comes to within `k` moves, and the state it ends in. -/
def State.endWithin : Nat → State → Option (RunEnd × State)
  | 0, s => s.runEnd.map fun e => (e, s)
  | k + 1, s =>
    match s.runEnd with
    | some e => some (e, s)
    | none =>
      match step s with
      | .next t => State.endWithin k t
      | .fault _ => none
      | .refused _ => none

end Sys2Proof.Machine
end

