-- ==== Sys2Proof/Machine/Interface.lean ====
section
/-! DEFINITION. What the platform may read between two cycles (`42_display.md` R167, `60_exceptions.md` R236, D21) and the
labels of a failure (R220). -/

namespace Sys2Proof.Machine

/-- The report of a cycle that did not fail (R11). -/
inductive Report where
  /-- the instruction completed -/
  | done
  /-- the core is, or has just become, suspended waiting for a key -/
  | suspended
  deriving DecidableEq, Repr

/-- The report of the cycle that led to this state (R11, R100). -/
def State.report (s : State) : Report := if s.wait.isSome then .suspended else .done

/-- The outputs of the core: `FB`, `DT`, `ST`, `display_dirty`, the cycle's report (D21). -/
structure Outputs where
  fb : Framebuffer
  dt : Byte
  st : Byte
  displayDirty : Bool
  report : Report
  deriving DecidableEq, Repr

/-- The outputs in a state. `ST` is given as it is, with no "sound on" signal (R236). -/
def State.outputs (s : State) : Outputs where
  fb := s.fb
  dt := s.dt
  st := s.st
  displayDirty := s.displayDirty
  report := s.report

/-- The code reported with a failure (R220, D10). -/
def Fault.code : Fault → Nat
  | .unknownOpcode _ => 1
  | .outOfRange _ => 2
  | .stackUnderflow => 3
  | .unimplemented _ => 4
  | .stackOverflow => 5

/-- The information reported with a failure (R220). -/
def Fault.info : Fault → Option Nat
  | .unknownOpcode w => some w.toNat
  | .outOfRange a => some a
  | .stackUnderflow => none
  | .unimplemented w => some w.toNat
  | .stackOverflow => none

end Sys2Proof.Machine
end

