-- ==== Sys2Proof/Machine/Parametric.lean ====
section
/-! DEFINITION. The same machine under any configuration of `00_scope.md` R4: "a claim that must hold of the hardware whatever
was chosen quantifies over the parameter". The parameters reach eight instructions and the decoder's category 0 (log 6). -/

namespace Sys2Proof.Machine

/-- `exec` under a configuration: the eight instructions a parameter reaches, and `exec` for every other. -/
def execUnder (c : Config) (i : Instr) (s : State) : Result :=
  match i with
  | .ret => retUnder c s
  | .call nnn => callUnder c nnn s
  | .subn x y => subnUnder c x y s
  | .skp x => skpUnder c x s
  | .sknp x => sknpUnder c x s
  | .ldI nnn => ldIUnder c nnn s
  | .addI x => addIUnder c x s
  | .ldFont x => ldFontUnder c x s
  | other => exec other s

/-- One cycle under a configuration (R100). -/
def cycleUnder (c : Config) (s : State) : Result := cycleWith (decodeWordUnder c) (execUnder c) s

/-- One move under a configuration. -/
def stepUnder (c : Config) (s : State) : Result := advanceWith (cycleUnder c) s

end Sys2Proof.Machine
end

