-- ==== Sys2Proof/WellFormed.lean ====
section
/-! DEFINITION. The checks on what comes from outside. An `Instr` has no ill-formed term: every operand field is of its exact
width, "every value is a legal index" (`30_encoding.md` R73) and the decoder "checks no operand for validity" (R76). What can
be ill-formed is a configuration (R4), a program image (`20_memory.md` R62) and, for an assembler, a word with a stray bit
(R78). -/

namespace Sys2Proof

/-- The choices R4 admits: `CAT0_MASK` 0x0FF or 0xFFF (R78, D2), `I_WIDTH` 12 or 16 (U1), `RET_OFFSET` "0 or 2" (R4), no font
table (U21: a model refuses `HAS_FONT = true`). -/
def Config.wellFormed (c : Config) : Bool :=
  (c.cat0Mask == 0x0FF#12 || c.cat0Mask == 0xFFF#12) && (c.iWidth == 12 || c.iWidth == 16) && (c.retOffset == 0 || c.retOffset == 2) && !c.hasFont

/-- An image fits between `0x200` and the end of memory: at most 3584 bytes (R62). -/
def imageWellFormed (image : List Byte) : Bool :=
  decide (image.length ≤ Config.maxImage)

/-- The word with every ignored bit zero, as an assembler emits it (R78): bits 11..8 of category 0, bits 3..0 of categories
5 and 9, and bits 7..4 of the two shifts of category 8. -/
def canonicalise (w : Word) : Word :=
  match (w.extractLsb' 12 4).toNat with
  | 0 => w &&& 0xF0FF#16
  | 5 => w &&& 0xFFF0#16
  | 9 => w &&& 0xFFF0#16
  | 8 => if w.extractLsb' 0 4 = 0x6#4 ∨ w.extractLsb' 0 4 = 0xE#4 then w &&& 0xFF0F#16 else w
  | _ => w

/-- A word none of whose ignored bits is set (R78). -/
def canonicalWord (w : Word) : Bool :=
  canonicalise w == w

end Sys2Proof
end

