-- ==== Sys2Proof/Safety.lean ====
section
/-! DEFINITION. The terms in which claims are made: what a move answered, the invariants of the machine, which state an
instruction may write (`10_state.md` R23 to R31), and the picture a sprite draws, pixel by pixel (`42_display.md` R162). -/

namespace Sys2Proof.Machine

/-! ## Outcomes -/

/-- The next state, if there is one. -/
def nextState : Result → Option State
  | .next s => some s
  | .fault _ => none
  | .refused _ => none

/-- The failure, if there is one. -/
def failure : Result → Option Fault
  | .next _ => none
  | .fault f => some f
  | .refused _ => none

/-! ## Invariants -/

/-- At most sixteen entries, each the address of a `2NNN` that was fetched, so at most 4094 (R30). -/
abbrev StackBounded (s : State) : Prop := s.stack.length ≤ 16 ∧ ∀ a ∈ s.stack, a.toNat ≤ 4094

/-- The largest value `pc` can reach is `0x10FE` (R28). -/
abbrev PcBounded (s : State) : Prop := s.pc.toNat ≤ 0x10FE

/-- `I` holds 0..4095 (R25, R26 at `I_WIDTH` = 12). -/
abbrev AddressBounded (s : State) : Prop := s.i.toNat ≤ 4095

/-- `WAIT = some(x)` means an `FX0A` with X = x has been fetched at `pc` and has not completed; `pc` still holds its address
(R33), and `display_dirty` is down (R167). -/
abbrev KeyWaitHolds (s : State) : Prop :=
  ∀ x, s.wait = some x → s.fetchedInstr = some (.ldVxK x) ∧ s.displayDirty = false

/-! ## What an instruction may write -/

/-- The instruction has `VF` as a side effect (R23): exactly six have. -/
def setsFlag : Instr → Bool
  | .addReg _ _ | .sub _ _ | .subn _ _ | .shr _ | .shl _ | .drw _ _ _ => true
  | .cls | .ret | .jp _ | .call _ | .seImm _ _ | .sneImm _ _ | .seReg _ _ | .ldImm _ _ | .addImm _ _ | .ldReg _ _ | .or _ _
  | .and _ _ | .xor _ _ | .sneReg _ _ | .ldI _ | .jpV0 _ | .rnd _ _ | .skp _ | .sknp _ | .ldVxDt _ | .ldVxK _ | .ldDtVx _
  | .ldStVx _ | .addI _ | .ldFont _ | .bcd _ | .store _ | .load _ => false

/-- The registers an instruction names as its destination (R24): one, a run from `V0`, or none. -/
def namesDest : Instr → RegIdx → Bool
  | .ldImm x _, r | .addImm x _, r | .ldReg x _, r | .or x _, r | .and x _, r | .xor x _, r | .addReg x _, r | .sub x _, r
  | .shr x, r | .subn x _, r | .shl x, r | .rnd x _, r | .ldVxDt x, r => r == x
  | .load x, r => decide (r.toNat ≤ x.toNat)
  | .cls, _ | .ret, _ | .jp _, _ | .call _, _ | .seImm _ _, _ | .sneImm _ _, _ | .seReg _ _, _ | .sneReg _ _, _ | .ldI _, _
  | .jpV0 _, _ | .drw _ _ _, _ | .skp _, _ | .sknp _, _ | .ldVxK _, _ | .ldDtVx _, _ | .ldStVx _, _ | .addI _, _
  | .ldFont _, _ | .bcd _, _ | .store _, _ => false

/-- `t` is `s` after a completed instruction that wrote general registers at most and went on to `pc + 2` (R101). The output
`display_dirty` (R167, the spec's D19; log 5) is left out here: one statement gives it for every instruction. -/
def RegsAdvance (s t : State) : Prop := t = { s with v := t.v, pc := s.pc + 2#16, displayDirty := t.displayDirty }

/-- `t` is `s` after a completed control transfer to `target` that wrote nothing else, `display_dirty` left out as above. -/
def JumpsTo (s t : State) (target : Word) : Prop := t = { s with pc := target, displayDirty := t.displayDirty }

/-- `t` is `s` but for the sound timer. -/
def SameButSound (s t : State) : Prop := t = { s with st := t.st }

/-- A parameter of R4 reaches the instruction's meaning: eight have one (log 6). -/
def readsParameter : Instr → Bool
  | .ret | .call _ | .subn _ _ | .ldI _ | .skp _ | .sknp _ | .addI _ | .ldFont _ => true
  | .cls | .jp _ | .seImm _ _ | .sneImm _ _ | .seReg _ _ | .ldImm _ _ | .addImm _ _ | .ldReg _ _ | .or _ _ | .and _ _
  | .xor _ _ | .addReg _ _ | .sub _ _ | .shr _ | .shl _ | .sneReg _ _ | .jpV0 _ | .rnd _ _ | .drw _ _ _ | .ldVxDt _
  | .ldVxK _ | .ldDtVx _ | .ldStVx _ | .bcd _ | .store _ | .load _ => false

/-- Where the next move is a cycle, because no event is listed or because a cycle is listed first, it fails with `f` (log 1). -/
def CycleFailsWith (s : State) (f : Fault) : Prop :=
  ∀ rest : List Event, s.schedule = [] ∨ s.schedule = .cycle :: rest → step s = .fault f

/-! ## Sequences of stack operations -/

/-- Pushes the addresses in order. -/
def pushAll : State → List Addr → Except Fault State
  | s, [] => .ok s
  | s, a :: as =>
    match s.push a.toNat with
    | .ok t => pushAll t as
    | .error f => .error f

/-- Pops `n` times; the addresses in the order they come off. -/
def popTimes : State → Nat → Except Fault (List Addr × State)
  | s, 0 => .ok ([], s)
  | s, n + 1 =>
    match s.pop with
    | .error f => .error f
    | .ok (a, t) =>
      match popTimes t n with
      | .error f => .error f
      | .ok (as, u) => .ok (a :: as, u)

/-! ## A sprite, pixel by pixel -/

/-- The sprite bit that lands on the pixel `(x, y)` when `bs` is drawn at `(x0, y0)`; off the sprite there is none (R162). -/
def spriteAt (bs : List Byte) (x0 y0 x y : Nat) : Bool :=
  if x0 ≤ x ∧ x < x0 + 8 ∧ y0 ≤ y then
    match bs[y - y0]? with
    | some b => b.getLsbD (7 - (x - x0))
    | none => false
  else false

end Sys2Proof.Machine
end

