-- ==== Sys2Proof/Certificates/Slice0/Obligations.lean ====
section
/-! DEFINITION. What the provers are asked to prove about this machine. Each docstring names the rule of spec/ a statement
formalises, and says so where it rests on a decision of the spec (D<n>) or of the model (log <n>). -/

open Sys2Proof Sys2Proof.Machine

/-! ## Reset and boot -/

/-- R29, R251: memory is 4096 cells, zero at machine creation, and execution begins at `0x200`. -/
def Obligations.ResetBeginsAt0x200WithZeroMemory : Prop :=
  State.reset.pc = 0x200#16 ∧
  (∀ a, a ≤ 4095 → State.reset.memRead a 1 = .ok [0#8]) ∧
  (∀ a, 4095 < a → State.reset.memRead a 1 = .error (.outOfRange a))

/-- R250 with the values of R35, most of them the spec's D15 (log 8): the `reset` event gives the reset state from any state.
What stands outside the core stays as it was, and `display_dirty` comes down: the model's choices (log 1, log 4, log 5). -/
def Obligations.ResetEventGivesTheResetState : Prop :=
  ∀ (s : State) (rest : List Event), s.schedule = .reset :: rest →
    ∃ t, step s = .next t ∧
      (∀ x, t.reg x = 0#8) ∧ t.i = 0#16 ∧ t.pc = 0x200#16 ∧ (∀ a, t.mem.read a = 0#8) ∧ t.stack = [] ∧
      t.dt = 0#8 ∧ t.st = 0#8 ∧ (∀ x y, Framebuffer.pixel t.fb x y = false) ∧ t.wait = none ∧
      t = { State.reset with schedule := rest, randomDraws := s.randomDraws, keySamples := s.keySamples }

/-- R62, R253 (the refusal of an image that does not fit is the spec's D23; log 19): byte k of the image stands at `0x200 + k`,
every other cell is 0, and the core is otherwise as after reset. -/
def Obligations.LaunchPlacesTheImageAt0x200 : Prop :=
  ∀ image : List Byte,
    if image.length ≤ 3584 then
      ∃ t, launch image = .next t ∧
        (∀ k (h : k < image.length), t.mem.read (0x200 + k) = image[k]) ∧
        (∀ a, a < 0x200 ∨ 0x200 + image.length ≤ a → t.mem.read a = 0#8) ∧
        t = { State.reset with mem := t.mem }
    else launch image = .refused .imageTooLong

/-! ## The state's cells -/

/-- R22: a register write stores the integer modulo 256, never fails, and touches no other register. -/
def Obligations.RegisterWriteStoresModulo256 : Prop :=
  ∀ (s : State) (x r : RegIdx) (n : Int),
    (((s.writeReg x n).reg x).toNat : Int) = n % 256 ∧
    (r ≠ x → (s.writeReg x n).reg r = s.reg r) ∧
    s.writeReg x n = { s with v := (s.writeReg x n).v }

/-- R51, R66: integers written to consecutive valid cells read back modulo 256, byte for byte, and no other cell changes. -/
def Obligations.RangeWriteReadsBackModulo256 : Prop :=
  ∀ (s : State) (a : Nat) (ns : List Int), a + ns.length ≤ 4096 →
    ∃ t, s.memWrite a ns = .ok t ∧
      (∀ k (h : k < ns.length), ((t.mem.read (a + k)).toNat : Int) = ns[k] % 256) ∧
      t.memRead a ns.length = .ok ((List.range ns.length).map fun k => t.mem.read (a + k)) ∧
      (∀ x, x < a ∨ a + ns.length ≤ x → t.mem.read x = s.mem.read x) ∧
      t = { s with mem := t.mem }

/-- R52 (that the whole range is checked first and that an empty range never raises are the spec's D9 and D17): a range access
answers exactly when it is empty or lies inside 0..4095; else it reports its lowest address outside. -/
def Obligations.RangeAccessRaisesExactlyOutsideMemory : Prop :=
  ∀ (s : State) (a n : Nat) (ns : List Int), ns.length = n →
    if n = 0 ∨ a + n ≤ 4096 then
      (∃ bs, s.memRead a n = .ok bs ∧ bs.length = n ∧ ∀ k, k < n → bs[k]? = some (s.mem.read (a + k))) ∧
      (∃ t, s.memWrite a ns = .ok t)
    else
      s.memRead a n = .error (.outOfRange (if 4096 ≤ a then a else 4096)) ∧
      s.memWrite a ns = .error (.outOfRange (if 4096 ≤ a then a else 4096))

/-- R30 (the bound of sixteen is the spec's D5): pushing addresses and popping as many gives them back in reverse order and the
state as it was; popping an empty stack fails, pushing on a full one fails. -/
def Obligations.CallStackIsLastInFirstOut : Prop :=
  (∀ (s : State) (as : List Addr), s.stack.length + as.length ≤ 16 →
    ∃ t, pushAll s as = .ok t ∧ t = { s with stack := s.stack ++ as } ∧ popTimes t as.length = .ok (as.reverse, s)) ∧
  (∀ s : State, s.stack = [] → s.pop = .error .stackUnderflow) ∧
  (∀ (s : State) (a : Nat), s.stack.length = 16 → s.push a = .error .stackOverflow)

/-- The model's representation of memory (log 15): in canonical form, memories that read alike everywhere are equal data. -/
def Obligations.CanonicalMemoriesThatReadAlikeAreEqual : Prop :=
  ∀ m m' : Memory, m.wf → m'.wf → (∀ a, a ≤ 4095 → m.read a = m'.read a) → m = m'

/-! ## Decoding -/

/-- Words written out bit by bit from the patterns of R83, one or more per family, decode to the instructions they stand for
(the patterns are the spec's D1). -/
def Obligations.WrittenOutWordsDecodeAsTheOpcodeMapSays : Prop :=
  decodeWord 0b0000000011100000#16 = some .cls ∧
  decodeWord 0b0000000011101110#16 = some .ret ∧
  decodeWord 0b0001001000110100#16 = some (.jp 0x234#12) ∧
  decodeWord 0b0010101010111100#16 = some (.call 0xABC#12) ∧
  decodeWord 0b0011101000010010#16 = some (.seImm 10#4 0x12#8) ∧
  decodeWord 0b0101101010110111#16 = some (.seReg 10#4 11#4) ∧
  decodeWord 0b0111000000000001#16 = some (.addImm 0#4 1#8) ∧
  decodeWord 0b1000101010110100#16 = some (.addReg 10#4 11#4) ∧
  decodeWord 0b1000101010111110#16 = some (.shl 10#4) ∧
  decodeWord 0b1010000100100011#16 = some (.ldI 0x123#12) ∧
  decodeWord 0b1100001100001111#16 = some (.rnd 3#4 0x0F#8) ∧
  decodeWord 0b1101000100100101#16 = some (.drw 1#4 2#4 5#4) ∧
  decodeWord 0b1110000110100001#16 = some (.sknp 1#4) ∧
  decodeWord 0b1111000100011110#16 = some (.addI 1#4) ∧
  decodeWord 0b1111000101100101#16 = some (.load 1#4) ∧
  decodeWord 0b0000000000000000#16 = none ∧
  decodeWord 0b1000101010111000#16 = none

/-- Decoding an encoded instruction gives it back, every operand at every value, and leaves the bytes after it (the encodings are
R83's, the spec's D1). -/
def Obligations.DecodingAnEncodedInstructionGivesItBack : Prop :=
  ∀ (i : Instr) (rest : List Byte),
    decodeWord (encode i) = some i ∧ decodeBytes (encodeBytes i ++ rest) = .ok (i, rest)

/-- The other direction: a decoded word, encoded again, is that word with its ignored bits zero (R78, the
spec's D2; log 16). -/
def Obligations.EncodingADecodedWordClearsItsIgnoredBits : Prop :=
  ∀ (w : Word) (i : Instr), decodeWord w = some i → encode i = canonicalise w

/-- The two-level lookup of R74 to R76 and the mask-and-match map of R83 are the same decoder (the patterns and masks are
the spec's D1 and D2; log 14). -/
def Obligations.TwoLevelLookupAgreesWithTheOpcodeMap : Prop :=
  ∀ (w : Word) (t : Tag), decodeTagUnder Config.standard w = some t ↔ w &&& t.rowMask = t.rowMatch

/-- R77: the words without a handler are exactly the four listed sets (the keys are the spec's D1 and D2; log 14). -/
def Obligations.UnknownOpcodesAreExactlyTheListedWords : Prop :=
  ∀ w : Word, decodeWord w = none ↔
    (category w = 0x0#4 ∧ fieldNN (payload w) ≠ 0xE0#8 ∧ fieldNN (payload w) ≠ 0xEE#8) ∨
    (category w = 0x8#4 ∧ fieldN (payload w) ∈ [0x8#4, 0x9#4, 0xA#4, 0xB#4, 0xC#4, 0xD#4, 0xF#4]) ∨
    (category w = 0xE#4 ∧ fieldNN (payload w) ≠ 0x9E#8 ∧ fieldNN (payload w) ≠ 0xA1#8) ∨
    (category w = 0xF#4 ∧
      fieldNN (payload w) ∉ [0x07#8, 0x0A#8, 0x15#8, 0x18#8, 0x1E#8, 0x29#8, 0x33#8, 0x55#8, 0x65#8])

/-! ## The cycle -/

/-- R54: the byte at the lower address is the high half of the fetched word. -/
def Obligations.FetchIsBigEndian : Prop :=
  ∀ s : State, s.pc.toNat ≤ 4094 →
    ∃ w, s.fetch = .ok w ∧
      w.toNat = (s.mem.read s.pc.toNat).toNat * 256 + (s.mem.read (s.pc.toNat + 1)).toNat

/-- R100: when the two bytes at `pc` decode to an instruction, a step of the running core is `exec` of it; where the environment
lists a cycle first, of the state with that entry taken off the list (log 1). -/
def Obligations.AStepRunsTheDecodedInstruction : Prop :=
  ∀ (s : State) (i : Instr), s.wait = none → s.pc.toNat ≤ 4094 →
    decodeWord (wordOfBytes (s.mem.read s.pc.toNat) (s.mem.read (s.pc.toNat + 1))) = some i →
    (s.schedule = [] → step s = exec i s) ∧
    (∀ rest, s.schedule = .cycle :: rest → step s = exec i { s with schedule := rest })

/-- R100, R221, R222, R228: a running core's cycle fails in its fetch when `pc` names no two cells, reporting the lowest address
outside; else in its decoder when the word has no handler. So it is where no event is listed and where a cycle is listed
first (log 1). -/
def Obligations.CycleRaisesFetchThenDecodeFailures : Prop :=
  ∀ s : State, s.wait = none →
    if 4094 < s.pc.toNat then CycleFailsWith s (.outOfRange (if s.pc.toNat = 4095 then 4096 else s.pc.toNat))
    else
      let w := wordOfBytes (s.mem.read s.pc.toNat) (s.mem.read (s.pc.toNat + 1))
      decodeWord w = none → CycleFailsWith s (.unknownOpcode w)

/-- The two ends of a run last until `reset`. R227 (the spec's derivation): a failed cycle fails the same way again, whatever ticks
and key events come between. R261 (the spec's D22; log 25): at a jump to its own address cycles change nothing but
`display_dirty`, which goes down (log 5), and ticks run the timers down. That a key event changes nothing in either case is R185
for a core that runs: it is ignored and not queued (the spec's D13; log 13). Ticks and key events leave `display_dirty` as it
was (log 5). -/
def Obligations.EitherEndOfARunLastsUntilReset : Prop :=
  (∀ (s : State) (f : Fault), cycle s = .fault f →
    ∀ e : Event, e ≠ .cycle → e ≠ .reset → ∃ t, act e s = .next t ∧ cycle t = .fault f) ∧
  (∀ s : State, s.atSelfJump = true →
    (∃ t, cycle s = .next t ∧ t = { s with displayDirty := false } ∧ t.atSelfJump = true) ∧
    (∀ e : Event, e ≠ .cycle → e ≠ .reset →
      ∃ t, act e s = .next t ∧ t = { s with dt := t.dt, st := t.st } ∧ t.atSelfJump = true))

/-! ## Control transfer -/

/-- R105. -/
def Obligations.JumpGoesToItsTarget : Prop :=
  ∀ (s : State) (nnn : Addr),
    ∃ t, exec (.jp nnn) s = .next t ∧ t.pc.toNat = nnn.toNat ∧ JumpsTo s t t.pc

/-- R111: the sum is exact, not reduced modulo 4096. -/
def Obligations.IndexedJumpAddsRegisterZeroExactly : Prop :=
  ∀ (s : State) (nnn : Addr),
    ∃ t, exec (.jpV0 nnn) s = .next t ∧ t.pc.toNat = (s.reg 0#4).toNat + nnn.toNat ∧ JumpsTo s t t.pc

/-- R107, R108. -/
def Obligations.SkipsOnAConstantCompareTheRegister : Prop :=
  ∀ (s : State) (x : RegIdx) (nn : Byte),
    (∃ t, exec (.seImm x nn) s = .next t ∧ JumpsTo s t (if s.reg x = nn then s.pc + 4#16 else s.pc + 2#16)) ∧
    (∃ t, exec (.sneImm x nn) s = .next t ∧ JumpsTo s t (if s.reg x ≠ nn then s.pc + 4#16 else s.pc + 2#16))

/-- R109, R110, with the corner X = Y: it always skips, or never. -/
def Obligations.SkipsOnTwoRegistersCompareThem : Prop :=
  (∀ (s : State) (x y : RegIdx),
    (∃ t, exec (.seReg x y) s = .next t ∧ JumpsTo s t (if s.reg x = s.reg y then s.pc + 4#16 else s.pc + 2#16)) ∧
    (∃ t, exec (.sneReg x y) s = .next t ∧ JumpsTo s t (if s.reg x ≠ s.reg y then s.pc + 4#16 else s.pc + 2#16))) ∧
  (∀ (s : State) (x : RegIdx),
    (∃ t, exec (.seReg x x) s = .next t ∧ t.pc = s.pc + 4#16) ∧ (∃ t, exec (.sneReg x x) s = .next t ∧ t.pc = s.pc + 2#16))

/-- R106 (the bound and its failure are the spec's D5): the address pushed is the call's own, and a call that was fetched
loses nothing of it in the 12-bit entry. `display_dirty` down: log 5. -/
def Obligations.CallPushesItsOwnAddressAndJumps : Prop :=
  ∀ (s : State) (nnn : Addr),
    if s.stack.length = 16 then exec (.call nnn) s = .fault .stackOverflow
    else
      ∃ t a, exec (.call nnn) s = .next t ∧ t.stack = s.stack ++ [a] ∧ a.toNat = s.pc.toNat % 4096 ∧
        t.pc.toNat = nnn.toNat ∧ t = { s with stack := t.stack, pc := t.pc, displayDirty := false }

/-- R104 with `RET_OFFSET` = 0 (the spec's D6): the counter is the popped entry itself. `display_dirty` down: log 5. -/
def Obligations.ReturnLandsOnThePoppedAddress : Prop :=
  (∀ (s : State) (rest : List Addr) (a : Addr), s.stack = rest ++ [a] →
    ∃ t, exec .ret s = .next t ∧ t.stack = rest ∧ t.pc.toNat = a.toNat ∧
      t = { s with stack := t.stack, pc := t.pc, displayDirty := false }) ∧
  (∀ s : State, s.stack = [] → exec .ret s = .fault .stackUnderflow)

/-- The property quoted in R106 ("restores the counter to A (not A+2 or A-2)"), run as three steps; it rests on D6. -/
def Obligations.JumpCallReturnRestoresTheCounter : Prop :=
  ∀ (s : State) (a b : Addr), s.wait = none → s.schedule = [] → s.stack.length < 16 →
    s.pc.toNat ≤ 4094 → a.toNat ≤ 4094 → b.toNat ≤ 4094 →
    s.fetchedInstr = some (.jp a) →
    decodeWord (wordOfBytes (s.mem.read a.toNat) (s.mem.read (a.toNat + 1))) = some (.call b) →
    decodeWord (wordOfBytes (s.mem.read b.toNat) (s.mem.read (b.toNat + 1))) = some .ret →
    ∃ t, core.run 3 s = .next t ∧ t.pc.toNat = a.toNat ∧ JumpsTo s t t.pc

/-! ## Loads, arithmetic, logic, shifts, random -/

/-- R132, R134: the destination gets the value, no flag and nothing else changes. -/
def Obligations.LoadConstantAndCopyWriteTheDestination : Prop :=
  ∀ (s : State) (x y : RegIdx) (nn : Byte),
    (∃ t, exec (.ldImm x nn) s = .next t ∧ t.reg x = nn ∧ (∀ r, r ≠ x → t.reg r = s.reg r) ∧ RegsAdvance s t) ∧
    (∃ t, exec (.ldReg x y) s = .next t ∧ t.reg x = s.reg y ∧ (∀ r, r ≠ x → t.reg r = s.reg r) ∧ RegsAdvance s t)

/-- R133: the sum modulo 256, no flag. -/
def Obligations.AddConstantWrapsWithoutAFlag : Prop :=
  ∀ (s : State) (x : RegIdx) (nn : Byte),
    ∃ t, exec (.addImm x nn) s = .next t ∧ (t.reg x).toNat = ((s.reg x).toNat + nn.toNat) % 256 ∧
      (∀ r, r ≠ x → t.reg r = s.reg r) ∧ RegsAdvance s t

/-- R135, R136, R137: bit by bit, no flag. -/
def Obligations.LogicWritesTheDestinationWithoutAFlag : Prop :=
  ∀ (s : State) (x y : RegIdx),
    (∃ t, exec (.or x y) s = .next t ∧ (∀ k, (t.reg x).getLsbD k = ((s.reg x).getLsbD k || (s.reg y).getLsbD k)) ∧
      (∀ r, r ≠ x → t.reg r = s.reg r) ∧ RegsAdvance s t) ∧
    (∃ t, exec (.and x y) s = .next t ∧ (∀ k, (t.reg x).getLsbD k = ((s.reg x).getLsbD k && (s.reg y).getLsbD k)) ∧
      (∀ r, r ≠ x → t.reg r = s.reg r) ∧ RegsAdvance s t) ∧
    (∃ t, exec (.xor x y) s = .next t ∧ (∀ k, (t.reg x).getLsbD k = ((s.reg x).getLsbD k ^^ (s.reg y).getLsbD k)) ∧
      (∀ r, r ≠ x → t.reg r = s.reg r) ∧ RegsAdvance s t)

/-- R138: the sum modulo 256 in `V[X]`, the carry in `VF`; with X = 15 the carry is what `VF` holds (R131, the
spec's D8; log 9). -/
def Obligations.AddRegistersWritesSumAndCarry : Prop :=
  ∀ (s : State) (x y : RegIdx),
    ∃ t, exec (.addReg x y) s = .next t ∧
      (x ≠ flagReg → (t.reg x).toNat = ((s.reg x).toNat + (s.reg y).toNat) % 256) ∧
      t.reg flagReg = (if 255 < (s.reg x).toNat + (s.reg y).toNat then 1#8 else 0#8) ∧
      (∀ r, r ≠ x → r ≠ flagReg → t.reg r = s.reg r) ∧ RegsAdvance s t

/-- R139: the difference modulo 256 in `V[X]`, 1 in `VF` when there was no borrow; with X = 15 the flag is what `VF`
holds (R131, the spec's D8; log 9). -/
def Obligations.SubtractWritesDifferenceAndNoBorrow : Prop :=
  ∀ (s : State) (x y : RegIdx),
    ∃ t, exec (.sub x y) s = .next t ∧
      (x ≠ flagReg → ((t.reg x).toNat : Int) = ((s.reg x).toNat - (s.reg y).toNat : Int) % 256) ∧
      t.reg flagReg = (if (s.reg x).toNat < (s.reg y).toNat then 0#8 else 1#8) ∧
      (∀ r, r ≠ x → r ≠ flagReg → t.reg r = s.reg r) ∧ RegsAdvance s t

/-- R141: the direction is the parameter's (D7): `V[X] - V[Y]` by default, as SUB, and `V[Y] - V[X]` when `SUBN_REVERSED`;
with X = 15 the flag is what `VF` holds (D8; log 9). -/
def Obligations.SecondSubtractTakesTheConfiguredDirection : Prop :=
  (∀ (s : State) (x y : RegIdx), ∃ t, exec (.subn x y) s = .next t ∧ exec (.sub x y) s = .next t) ∧
  (∀ (c : Config) (s : State) (x y : RegIdx),
    ∃ t, execUnder c (.subn x y) s = .next t ∧
      (c.subnReversed = false → exec (.sub x y) s = .next t) ∧
      (c.subnReversed = true →
        (x ≠ flagReg → ((t.reg x).toNat : Int) = ((s.reg y).toNat - (s.reg x).toNat : Int) % 256) ∧
        t.reg flagReg = (if (s.reg y).toNat < (s.reg x).toNat then 0#8 else 1#8) ∧
        (∀ r, r ≠ x → r ≠ flagReg → t.reg r = s.reg r) ∧ RegsAdvance s t))

/-- R140, R142: the bit shifted out in `VF`, the rest in `V[X]`; with X = 15 the flag itself is shifted (R131, the spec's D8;
log 9): SHR leaves 0, SHL leaves twice the old bit 7. -/
def Obligations.ShiftsMoveOneBitOutIntoTheFlag : Prop :=
  ∀ (s : State) (x : RegIdx),
    (∃ t, exec (.shr x) s = .next t ∧
      (x ≠ flagReg → (t.reg x).toNat = (s.reg x).toNat / 2 ∧ (t.reg flagReg).toNat = (s.reg x).toNat % 2) ∧
      (x = flagReg → t.reg flagReg = 0#8) ∧
      (∀ r, r ≠ x → r ≠ flagReg → t.reg r = s.reg r) ∧ RegsAdvance s t) ∧
    (∃ t, exec (.shl x) s = .next t ∧
      (x ≠ flagReg → (t.reg x).toNat = (s.reg x).toNat * 2 % 256 ∧ (t.reg flagReg).toNat = (s.reg x).toNat / 128) ∧
      (x = flagReg → (t.reg flagReg).toNat = 2 * ((s.reg x).toNat / 128)) ∧
      (∀ r, r ≠ x → r ≠ flagReg → t.reg r = s.reg r) ∧ RegsAdvance s t)

/-- R143: the random source's next byte, whatever it is (a free value: log 2), masked; one byte is taken (R38, the spec's D14); the result has no bit that NN has clear. -/
def Obligations.RandomWritesAMaskedByteOfTheSource : Prop :=
  ∀ (s : State) (x : RegIdx) (nn : Byte),
    ∃ t, exec (.rnd x nn) s = .next t ∧ t.reg x = (Config.randomByte s.randomDraws &&& nn) ∧
      (∀ k, nn.getLsbD k = false → (t.reg x).getLsbD k = false) ∧
      (∀ r, r ≠ x → t.reg r = s.reg r) ∧
      t = { s with v := t.v, pc := s.pc + 2#16, displayDirty := t.displayDirty, randomDraws := s.randomDraws + 1 }

/-! ## Display -/

/-- R160. -/
def Obligations.ClearTurnsEveryPixelOff : Prop :=
  ∀ s : State,
    ∃ t, exec .cls s = .next t ∧ (∀ x y, x ≤ 63 → y ≤ 31 → Framebuffer.pixel t.fb x y = false) ∧
      t = { s with fb := t.fb, pc := s.pc + 2#16, displayDirty := t.displayDirty }

/-- R162, R163, R164: the compositor's loops draw every pixel at once. Each pixel of the grid is XORed with the sprite bit that
lands on it; the collision is that some lit pixel of the grid met a sprite bit 1, before the draw. A start
outside the grid is taken as it is (the spec's D18; log 12). -/
def Obligations.CompositorDrawsEveryPixelAtOnce : Prop :=
  ∀ (fb : Framebuffer) (bs : List Byte) (x0 y0 : Nat),
    (∀ x y, x ≤ 63 → y ≤ 31 →
      Framebuffer.pixel (drawSprite fb bs x0 y0).1 x y = (Framebuffer.pixel fb x y ^^ spriteAt bs x0 y0 x y)) ∧
    ((drawSprite fb bs x0 y0).2 = true ↔
      ∃ x y, x ≤ 63 ∧ y ≤ 31 ∧ Framebuffer.pixel fb x y = true ∧ spriteAt bs x0 y0 x y = true)

/-- R166 for every sprite and place: the identical sprite drawn again restores the picture, and on a cleared buffer the second
draw collides exactly when the first lit a pixel. -/
def Obligations.DrawingTheSameSpriteTwiceRestoresThePicture : Prop :=
  (∀ (fb : Framebuffer) (bs : List Byte) (x0 y0 : Nat),
    (drawSprite (drawSprite fb bs x0 y0).1 bs x0 y0).1 = fb) ∧
  (∀ (bs : List Byte) (x0 y0 : Nat),
    (drawSprite clearedFramebuffer bs x0 y0).2 = false ∧
    ((drawSprite (drawSprite clearedFramebuffer bs x0 y0).1 bs x0 y0).2 = true ↔
      ∃ x y, x ≤ 63 ∧ y ≤ 31 ∧ Framebuffer.pixel (drawSprite clearedFramebuffer bs x0 y0).1 x y = true))

/-- R161 (no access for N = 0 is the spec's D17, no wrap of the start its D18): the N bytes at `I` are drawn at (Vx, Vy), the old
`VF` being a coordinate where X or Y is 15, and `VF` gets the collision; out of range nothing happens but the failure, at 4096 (or at an `I` above
4095, which the twelve bits of D4 never hold; log 7). -/
def Obligations.DrawCompositesTheSpriteAtI : Prop :=
  ∀ (s : State) (x y : RegIdx) (n : Nibble),
    if n = 0#4 ∨ s.base + n.toNat ≤ 4096 then
      ∃ t bs, exec (.drw x y n) s = .next t ∧ bs.length = n.toNat ∧
        (∀ k, k < n.toNat → bs[k]? = some (s.mem.read (s.base + k))) ∧
        t.fb = (drawSprite s.fb bs (s.reg x).toNat (s.reg y).toNat).1 ∧
        t.reg flagReg = (if (drawSprite s.fb bs (s.reg x).toNat (s.reg y).toNat).2 then 1#8 else 0#8) ∧
        (∀ r, r ≠ flagReg → t.reg r = s.reg r) ∧
        t = { s with fb := t.fb, v := t.v, pc := s.pc + 2#16, displayDirty := true }
    else exec (.drw x y n) s = .fault (.outOfRange (if s.base ≤ 4095 then 4096 else s.base))

/-! ## Keys and timers -/

/-- R180, R181: the skips ask the input source once for a code 0..15; above 15 they take "not pressed" without asking (the
spec's D12). The input source's answer is any Boolean (log 3). `display_dirty` down: log 5. -/
def Obligations.KeySkipsAskTheInputSource : Prop :=
  ∀ (s : State) (x : RegIdx),
    (∀ k : KeyCode, (s.reg x).toNat = k.toNat →
      (∃ t, exec (.skp x) s = .next t ∧
        t = { s with pc := if Config.keyLevel s.keySamples k then s.pc + 4#16 else s.pc + 2#16,
                     displayDirty := false, keySamples := s.keySamples + 1 }) ∧
      (∃ t, exec (.sknp x) s = .next t ∧
        t = { s with pc := if Config.keyLevel s.keySamples k then s.pc + 2#16 else s.pc + 4#16,
                     displayDirty := false, keySamples := s.keySamples + 1 })) ∧
    (15 < (s.reg x).toNat →
      (∃ t, exec (.skp x) s = .next t ∧ JumpsTo s t (s.pc + 2#16)) ∧
      (∃ t, exec (.sknp x) s = .next t ∧ JumpsTo s t (s.pc + 4#16)))

/-- R182, R183, R186. -/
def Obligations.TimerInstructionsMoveOneByte : Prop :=
  ∀ (s : State) (x : RegIdx),
    (∃ t, exec (.ldVxDt x) s = .next t ∧ t.reg x = s.dt ∧ (∀ r, r ≠ x → t.reg r = s.reg r) ∧ RegsAdvance s t) ∧
    (∃ t, exec (.ldDtVx x) s = .next t ∧ t = { s with dt := s.reg x, pc := s.pc + 2#16, displayDirty := t.displayDirty }) ∧
    (∃ t, exec (.ldStVx x) s = .next t ∧ t = { s with st := s.reg x, pc := s.pc + 2#16, displayDirty := t.displayDirty })

/-- R184, R100 (the suspend state is the spec's D13; `display_dirty`: log 5): `FX0A` suspends the core at its own address, and a
suspended cycle changes nothing, whether no event is listed or a cycle is listed first (log 1). -/
def Obligations.WaitForKeySuspendsTheCore : Prop :=
  (∀ (s : State) (x : RegIdx),
    ∃ t, exec (.ldVxK x) s = .next t ∧ t = { s with wait := some x, displayDirty := false } ∧ t.report = .suspended) ∧
  (∀ (s : State) (x : RegIdx), s.wait = some x →
    (s.schedule = [] → step s = .next s) ∧
    (∀ rest, s.schedule = .cycle :: rest → step s = .next { s with schedule := rest }))

/-- R185 (ignoring a press while running is the spec's D13; log 13): a press completes the suspended instruction, else does nothing.
That it leaves `display_dirty` as it was is log 5, and that it comes off the list of events log 1. -/
def Obligations.KeyEventCompletesTheWait : Prop :=
  ∀ (s : State) (k : KeyCode) (rest : List Event), s.schedule = .keyEvent k :: rest →
    (∀ x, s.wait = some x →
      ∃ t, step s = .next t ∧ (t.reg x).toNat = k.toNat ∧ (∀ r, r ≠ x → t.reg r = s.reg r) ∧
        t = { s with v := t.v, wait := none, pc := s.pc + 2#16, schedule := rest }) ∧
    (s.wait = none → step s = .next { s with schedule := rest })

/-- R232, R233: down by one, never below zero, suspended or not (R235, the spec's D13; log 13); nothing else changes. That a tick
leaves `display_dirty` as it was is log 5, and that it comes off the list of events log 1. -/
def Obligations.TicksCountDownToZero : Prop :=
  ∀ (s : State) (rest : List Event),
    (s.schedule = .tickGeneral :: rest →
      ∃ t, step s = .next t ∧ t.dt.toNat = s.dt.toNat - 1 ∧ t = { s with dt := t.dt, schedule := rest }) ∧
    (s.schedule = .tickSound :: rest →
      ∃ t, step s = .next t ∧ t.st.toNat = s.st.toNat - 1 ∧ t = { s with st := t.st, schedule := rest })

/-! ## Address register and memory -/

/-- R200 (the instruction is the spec's D3, log 14; `display_dirty` down: log 5): `I` gets the constant. -/
def Obligations.LoadAddressSetsI : Prop :=
  ∀ (s : State) (nnn : Addr),
    ∃ t, exec (.ldI nnn) s = .next t ∧ t.i.toNat = nnn.toNat ∧
      t = { s with i := t.i, pc := s.pc + 2#16, displayDirty := false }

/-- R201: the sum modulo 4096 (the twelve bits of `I` are the spec's D4; log 7), no flag. -/
def Obligations.AddToAddressWrapsAtTwelveBits : Prop :=
  ∀ (s : State) (x : RegIdx),
    ∃ t, exec (.addI x) s = .next t ∧ t.i.toNat = (s.i.toNat + (s.reg x).toNat) % 4096 ∧
      t = { s with i := t.i, pc := s.pc + 2#16, displayDirty := t.displayDirty }

/-- R224: every execution of `FX29` raises `Unimplemented` (that no font table exists is the spec's D16, log 20) with its word (the
information is D10, log 22; the pattern D1, log 14). -/
def Obligations.FontAddressAlwaysRaisesUnimplemented : Prop :=
  ∀ (s : State) (x : RegIdx),
    ∃ w, exec (.ldFont x) s = .fault (.unimplemented w) ∧ w.toNat = 0xF029 + 256 * x.toNat ∧ decodeWord w = some (.ldFont x)

/-- R203: hundreds, tens, ones at `I`, `I + 1`, `I + 2`; nothing is written when one of them is outside. An `I` above 4095 is no value
of the twelve-bit register R203 speaks of; it has its statement with the parameter `I_WIDTH`. -/
def Obligations.DecimalDigitsAreStoredAtI : Prop :=
  ∀ (s : State) (x : RegIdx),
    (s.base ≤ 4093 →
      ∃ t, exec (.bcd x) s = .next t ∧
        (t.mem.read s.base).toNat = (s.reg x).toNat / 100 ∧
        (t.mem.read (s.base + 1)).toNat = (s.reg x).toNat / 10 % 10 ∧
        (t.mem.read (s.base + 2)).toNat = (s.reg x).toNat % 10 ∧
        (∀ a, a < s.base ∨ s.base + 3 ≤ a → t.mem.read a = s.mem.read a) ∧
        t = { s with mem := t.mem, pc := s.pc + 2#16, displayDirty := t.displayDirty }) ∧
    (4094 ≤ s.base → s.base ≤ 4095 → exec (.bcd x) s = .fault (.outOfRange 4096))

/-- R204: register r goes to `I + r` for r = 0..X (the run ends at the field X: the spec's D27; log 21); `I` stays; nothing is
written when one of them is outside (an `I` above 4095 is never held, D4; log 7). -/
def Obligations.StoreRegistersWritesTheRunAtI : Prop :=
  ∀ (s : State) (x : RegIdx),
    if 4095 < s.base + x.toNat then exec (.store x) s = .fault (.outOfRange (if s.base ≤ 4095 then 4096 else s.base))
    else
      ∃ t, exec (.store x) s = .next t ∧
        (∀ r : RegIdx, r.toNat ≤ x.toNat → t.mem.read (s.base + r.toNat) = s.reg r) ∧
        (∀ a, a < s.base ∨ s.base + x.toNat < a → t.mem.read a = s.mem.read a) ∧
        t = { s with mem := t.mem, pc := s.pc + 2#16, displayDirty := t.displayDirty }

/-- R205: register r comes from `I + r` for r = 0..X (the run ends at the field X: the spec's D27; log 21), the others stay; `I`
stays; no register is written when one is outside (an `I` above 4095 is never held, D4; log 7). -/
def Obligations.LoadRegistersReadsTheRunAtI : Prop :=
  ∀ (s : State) (x : RegIdx),
    if 4095 < s.base + x.toNat then exec (.load x) s = .fault (.outOfRange (if s.base ≤ 4095 then 4096 else s.base))
    else
      ∃ t, exec (.load x) s = .next t ∧
        (∀ r : RegIdx, t.reg r = if r.toNat ≤ x.toNat then s.mem.read (s.base + r.toNat) else s.reg r) ∧
        RegsAdvance s t

/-! ## Frames over the whole instruction set -/

/-- R23: exactly six instructions have `VF` as a side effect, each with 0 or 1; no other writes it unless `VF` is its named
destination. -/
def Obligations.OnlySixInstructionsWriteTheFlagAsASideEffect : Prop :=
  ∀ (i : Instr) (s t : State), exec i s = .next t → namesDest i flagReg = false →
    if setsFlag i then t.reg flagReg = 0#8 ∨ t.reg flagReg = 1#8 else t.reg flagReg = s.reg flagReg

/-- R24 (the spec's derivation): a register an instruction neither names as a destination nor has as a side effect is unchanged. -/
def Obligations.UnnamedRegistersAreUnchanged : Prop :=
  ∀ (i : Instr) (s t : State), exec i s = .next t →
    ∀ r, namesDest i r = false → (r = flagReg → setsFlag i = false) → t.reg r = s.reg r

/-- R25, R30, R31, R32, R33, R38: each special cell is written by the instructions its rule names and by no other. R167 (the
spec's D19; log 5): `display_dirty` is up after exactly the completed `00E0` and `DXYN`. -/
def Obligations.SpecialCellsChangeOnlyByTheirInstructions : Prop :=
  ∀ (i : Instr) (s t : State), exec i s = .next t →
    ((∀ nnn, i ≠ .ldI nnn) → (∀ x, i ≠ .addI x) → t.i = s.i) ∧
    ((∀ nnn, i ≠ .call nnn) → i ≠ .ret → t.stack = s.stack) ∧
    ((∀ x, i ≠ .ldDtVx x) → t.dt = s.dt) ∧
    ((∀ x, i ≠ .ldStVx x) → t.st = s.st) ∧
    (i ≠ .cls → (∀ x y n, i ≠ .drw x y n) → t.fb = s.fb) ∧
    (t.displayDirty = true ↔ i = .cls ∨ ∃ x y n, i = .drw x y n) ∧
    ((∀ x, i ≠ .ldVxK x) → t.wait = s.wait) ∧
    ((∀ x nn, i ≠ .rnd x nn) → t.randomDraws = s.randomDraws) ∧
    ((∀ x, i ≠ .skp x) → (∀ x, i ≠ .sknp x) → t.keySamples = s.keySamples) ∧
    t.schedule = s.schedule

/-- R53, R57, R203, R204: a cell changes only inside the range `FX33` or `FX55` stores to, at `I`; every other instruction leaves
all of memory alone. -/
def Obligations.MemoryChangesOnlyWhereAStoreWrites : Prop :=
  ∀ (i : Instr) (s t : State), exec i s = .next t →
    ∀ a : Nat,
      (∀ x, i = .bcd x → a < s.base ∨ s.base + 3 ≤ a) →
      (∀ x, i = .store x → a < s.base ∨ s.base + x.toNat < a) →
      t.mem.read a = s.mem.read a

/-! ## Invariants and isolation -/

/-- The state after reset meets every invariant below, and does not wait (the empty stack, `I` = 0 and `WAIT` = none are the spec's
D15; log 8). -/
def Obligations.ResetMeetsTheInvariants : Prop :=
  State.reset.mem.wf ∧ StackBounded State.reset ∧ AddressBounded State.reset ∧ PcBounded State.reset ∧
    KeyWaitHolds State.reset ∧ State.reset.wait = none

/-- Every step, of a cycle or of any event, keeps memory in its canonical form inside 0..4095 (R29; log 15). -/
def Obligations.EveryStepKeepsMemoryCanonical : Prop :=
  ∀ s t : State, s.mem.wf → step s = .next t → t.mem.wf

/-- R30 (the spec's derivation and D5): every step keeps the stack at sixteen entries at most, each at most 4094. R25, R26 (the
spec's D4; log 7): every step keeps `I` in 0..4095. -/
def Obligations.EveryStepKeepsTheCallStackAndTheAddressRegisterBounded : Prop :=
  (∀ s t : State, StackBounded s → step s = .next t → StackBounded t) ∧
  (∀ s t : State, AddressBounded s → step s = .next t → AddressBounded t)

/-- R33, R185: while the core waits, `pc` holds the address of the `FX0A` it waits in, whatever events come. -/
def Obligations.EveryStepKeepsTheKeyWaitOnItsInstruction : Prop :=
  ∀ s t : State, KeyWaitHolds s → step s = .next t → KeyWaitHolds t

/-- R28 (the spec's derivation): no step takes `pc` past `0x10FE`. The premise on the wait is the invariant just above: a press
adds 2 to the address of a fetched `FX0A` only. -/
def Obligations.EveryStepKeepsTheProgramCounterBounded : Prop :=
  ∀ s t : State, PcBounded s → KeyWaitHolds s → step s = .next t → PcBounded t

/-- R31: no instruction reads `ST`, and it has no effect inside the core. Of two states that differ in `ST` alone, one answers a
next state exactly when the other does, differing from it in `ST` at most, and one fails exactly as the other does. -/
def Obligations.TheSoundTimerInfluencesNothing : Prop :=
  ∀ (s : State) (b : Byte),
    (∀ t, step s = .next t → ∃ u, step { s with st := b } = .next u ∧ SameButSound t u) ∧
    (∀ f, step s = .fault f → step { s with st := b } = .fault f)

/-- R11, R220: a step of the machine answers a next state or one of the five failures; it is never refused. -/
def Obligations.NoStepIsRefused : Prop :=
  ∀ (s : State) (r : Refusal), step s ≠ .refused r

/-! ## Parameters (R4) -/

/-- The step is the parametric one at the defaults of R4, under every configuration that has those values (log 6). -/
def Obligations.TheStepIsTheParametricStepAtTheDefaults : Prop :=
  (∀ s : State, stepUnder Config.standard s = step s) ∧
  (∀ (c : Config) (s : State), c.cat0Mask = 0x0FF#12 → c.iWidth = 12 → c.stackDepth = some 16 → c.retOffset = 0 →
    c.subnReversed = false → c.keyOor = false → c.hasFont = false → stepUnder c s = step s)

/-- What each parameter of R4 changes, one clause or two for every field of `Config`, and that no other instruction reads one
(log 6): `RET_OFFSET` where `RET` lands (D6), `STACK_DEPTH` when a call overflows (D5), `SUBN_REVERSED` the direction of `8XY7`
(D7), `KEY_OOR` the answer for a key code above 15 (D12), `CAT0_MASK` the aliases of category 0 (D2), `I_WIDTH` the bits `I`
keeps (D4; log 7) and, beyond 12, that an access may start above 4095 and then fails there, `HAS_FONT` what `FX29` answers (D16;
log 20: the spec gives a font table no meaning). -/
def Obligations.EachParameterHasItsStatedEffect : Prop :=
  (∀ (c : Config) (s : State) (rest : List Addr) (a : Addr), s.stack = rest ++ [a] →
    ∃ t, execUnder c .ret s = .next t ∧ t.stack = rest ∧ t.pc.toNat = (a.toNat + c.retOffset) % 65536) ∧
  (∀ (c : Config) (s : State) (nnn : Addr),
    if c.stackDepth = some s.stack.length then execUnder c (.call nnn) s = .fault .stackOverflow
    else ∃ t a, execUnder c (.call nnn) s = .next t ∧ t.stack = s.stack ++ [a] ∧ a.toNat = s.pc.toNat % 4096 ∧
      t.pc.toNat = nnn.toNat) ∧
  (∀ (c : Config) (s : State) (nnn : Addr), c.stackDepth = none → ∃ t, execUnder c (.call nnn) s = .next t) ∧
  (∀ (c : Config) (s : State) (x y : RegIdx),
    ∃ t, execUnder c (.subn x y) s = .next t ∧
      t.reg flagReg =
        (if c.subnReversed then (if (s.reg y).toNat < (s.reg x).toNat then 0#8 else 1#8)
         else (if (s.reg x).toNat < (s.reg y).toNat then 0#8 else 1#8)) ∧
      (x ≠ flagReg → ((t.reg x).toNat : Int) =
        (if c.subnReversed then ((s.reg y).toNat - (s.reg x).toNat : Int) else ((s.reg x).toNat - (s.reg y).toNat : Int)) % 256)) ∧
  (∀ (c : Config) (s : State) (x : RegIdx), 15 < (s.reg x).toNat →
    (∃ t, execUnder c (.skp x) s = .next t ∧ t.pc = if c.keyOor then s.pc + 4#16 else s.pc + 2#16) ∧
    (∃ t, execUnder c (.sknp x) s = .next t ∧ t.pc = if c.keyOor then s.pc + 2#16 else s.pc + 4#16)) ∧
  (∀ (c : Config) (w : Word),
    (c.cat0Mask = 0x0FF#12 → decodeWordUnder c w = decodeWord w) ∧
    (c.cat0Mask = 0xFFF#12 →
      decodeWordUnder c w = if category w = 0#4 ∧ fieldX (payload w) ≠ 0#4 then none else decodeWord w)) ∧
  (∀ (c : Config) (s : State) (nnn : Addr) (x : RegIdx), c.iWidth ≤ 16 →
    (∃ t, execUnder c (.ldI nnn) s = .next t ∧ t.i.toNat = nnn.toNat % 2 ^ c.iWidth) ∧
    (∃ t, execUnder c (.addI x) s = .next t ∧ t.i.toNat = (s.i.toNat + (s.reg x).toNat) % 2 ^ c.iWidth)) ∧
  (∀ (c : Config) (s : State) (x y : RegIdx) (n : Nibble), 4095 < s.base →
    execUnder c (.bcd x) s = .fault (.outOfRange s.base) ∧ execUnder c (.store x) s = .fault (.outOfRange s.base) ∧
    execUnder c (.load x) s = .fault (.outOfRange s.base) ∧
    (n ≠ 0#4 → execUnder c (.drw x y n) s = .fault (.outOfRange s.base))) ∧
  (∀ (c : Config) (s : State) (x : RegIdx),
    if c.hasFont then execUnder c (.ldFont x) s = .refused .fontTableUnspecified
    else ∃ w, execUnder c (.ldFont x) s = .fault (.unimplemented w) ∧ decodeWord w = some (.ldFont x)) ∧
  (∀ (c : Config) (i : Instr) (s : State), readsParameter i = false → execUnder c i s = exec i s)
end

