-- ==== Sys2Proof/Laws/Compositor.lean ====
section
/-! SUPPORT. The display buffer one pixel at a time, and the compositor's loops one bit at a time. -/

namespace Sys2Proof.Machine

theorem pixel_outside (fb : Framebuffer) {x y : Nat} (h : ¬ (x < 64 ∧ y < 32)) : Framebuffer.pixel fb x y = false := by
  simp [Framebuffer.pixel, h]

/-- A pixel reads what was last put there; every other pixel reads as before. -/
theorem pixel_setPixel (fb : Framebuffer) (x y : Nat) (b : Bool) (x' y' : Nat) :
    Framebuffer.pixel (Framebuffer.setPixel fb x y b) x' y' =
      if x' = x ∧ y' = y ∧ x < 64 ∧ y < 32 then b else Framebuffer.pixel fb x' y' := by
  unfold Framebuffer.setPixel
  by_cases h : x < 64 ∧ y < 32
  · rw [dif_pos h]
    by_cases h' : x' < 64 ∧ y' < 32
    · simp only [Framebuffer.pixel, dif_pos h', Vector.getElem_set]
      by_cases hy : y = y'
      · subst hy
        by_cases hx : x = x'
        · subst hx; simp [h.1, h.2]
        · simp [hx, Ne.symm hx]
      · simp [hy, Ne.symm hy]
    · rw [pixel_outside _ h', pixel_outside _ h', if_neg]
      rintro ⟨rfl, rfl, hx, hy⟩; exact h' ⟨hx, hy⟩
  · rw [dif_neg h, if_neg]
    rintro ⟨-, -, hx, hy⟩; exact h ⟨hx, hy⟩

@[simp] theorem pixel_cleared (x y : Nat) : Framebuffer.pixel clearedFramebuffer x y = false := by
  unfold Framebuffer.pixel clearedFramebuffer
  split <;> simp

/-- Pictures that agree on every pixel of the grid are equal. -/
theorem framebuffer_ext {fb gb : Framebuffer}
    (h : ∀ x y, x < 64 → y < 32 → Framebuffer.pixel fb x y = Framebuffer.pixel gb x y) : fb = gb := by
  apply Vector.ext
  intro y hy
  apply Vector.ext
  intro x hx
  simpa [Framebuffer.pixel, hx, hy] using h x y hx hy

/-- One sprite bit (R162 to R164): the pixel it lands on is XORed, no other changes, none when it lands off the grid. -/
theorem pixel_drawBit (px py : Nat) (bit : Bool) (acc : Framebuffer × Bool) (x y : Nat) :
    Framebuffer.pixel (drawBit px py bit acc).1 x y =
      (Framebuffer.pixel acc.1 x y ^^ (bit && decide (x = px ∧ y = py ∧ px ≤ 63 ∧ py ≤ 31))) := by
  unfold drawBit
  by_cases h : px ≤ 63 ∧ py ≤ 31
  · rw [if_pos h]
    simp only [pixel_setPixel]
    by_cases hp : x = px ∧ y = py
    · obtain ⟨rfl, rfl⟩ := hp; simp [h, show x < 64 by omega, show y < 32 by omega]
    · have : ¬ (x = px ∧ y = py ∧ px < 64 ∧ py < 32) := fun e => hp ⟨e.1, e.2.1⟩
      have h2 : ¬ (x = px ∧ y = py ∧ px ≤ 63 ∧ py ≤ 31) := fun e => hp ⟨e.1, e.2.1⟩
      simp [this, h2]
  · simp [h]

/-- Its collision (R164): raised when it switches a lit pixel of the grid off, else as before. -/
theorem collision_drawBit (px py : Nat) (bit : Bool) (acc : Framebuffer × Bool) :
    (drawBit px py bit acc).2 =
      (acc.2 || (Framebuffer.pixel acc.1 px py && bit)) := by
  unfold drawBit
  by_cases h : px ≤ 63 ∧ py ≤ 31
  · rw [if_pos h]
  · rw [if_neg h, pixel_outside _ (by omega)]; simp

end Sys2Proof.Machine
end

