-- ==== Sys2Proof/Laws/Memory.lean ====
section
/-! SUPPORT. Memory: what one cell reads after a write, and that every operation keeps the canonical form. -/

namespace Sys2Proof.Machine

/-! ### One cell -/

@[simp] theorem read_nil (a : Nat) : Memory.read [] a = 0#8 := rfl

theorem read_cons (k : Nat) (b : Byte) (m : Memory) (a : Nat) :
    Memory.read ((k, b) :: m) a = if a = k then b else Memory.read m a := rfl

theorem withoutCell_cons (k : Nat) (b : Byte) (m : Memory) (a : Nat) :
    Memory.withoutCell ((k, b) :: m) a = if k = a then Memory.withoutCell m a else (k, b) :: Memory.withoutCell m a := by
  simp only [Memory.withoutCell, List.filter_cons]
  by_cases h : k = a <;> simp [h]

theorem mem_withoutCell {m : Memory} {a : Nat} {c : Host.Cell} : c ∈ m.withoutCell a ↔ c ∈ m ∧ c.1 ≠ a := by
  simp [Memory.withoutCell]

theorem read_withoutCell (m : Memory) (a x : Nat) : (m.withoutCell a).read x = if x = a then 0#8 else m.read x := by
  induction m with
  | nil => simp [Memory.withoutCell]
  | cons c m ih =>
    obtain ⟨k, b⟩ := c
    rw [withoutCell_cons]
    by_cases h : k = a
    · by_cases hx : x = a <;> simp_all [read_cons]
    · by_cases hx : x = a <;> by_cases hk : x = k <;> simp_all [read_cons]

theorem read_insertCell (m : Memory) (a : Nat) (b : Byte) (hm : ∀ c ∈ m, c.1 ≠ a) (x : Nat) :
    (m.insertCell a b).read x = if x = a then b else m.read x := by
  induction m with
  | nil => simp [Memory.insertCell, read_cons]
  | cons c m ih =>
    obtain ⟨k, d⟩ := c
    have hk : k ≠ a := hm (k, d) (by simp)
    have ih := ih fun c hc => hm c (by simp [hc])
    simp only [Memory.insertCell]
    by_cases h : a < k
    · simp [h, read_cons]
    · rw [if_neg h, read_cons, ih]
      by_cases hx : x = a
      · subst hx; simp [Ne.symm hk]
      · simp [hx, read_cons]

/-- A cell reads what was last written to it; every other cell reads as before (R51). -/
theorem read_write (m : Memory) (a : Nat) (b : Byte) (x : Nat) : (m.write a b).read x = if x = a then b else m.read x := by
  unfold Memory.write
  split
  · rename_i h; subst h; exact read_withoutCell m a x
  · rw [read_insertCell _ _ _ (fun c hc => (mem_withoutCell.mp hc).2), read_withoutCell]
    by_cases hx : x = a <;> simp [hx]

@[simp] theorem read_write_same (m : Memory) (a : Nat) (b : Byte) : (m.write a b).read a = b := by simp [read_write]

theorem read_write_ne (m : Memory) {a x : Nat} (b : Byte) (h : x ≠ a) : (m.write a b).read x = m.read x := by
  simp [read_write, h]

/-- A range write puts byte `x - a` at `x`, and leaves every cell outside the range alone (R66). -/
theorem read_writeBytes (bs : List Byte) : ∀ (m : Memory) (a x : Nat),
    (m.writeBytes a bs).read x = if a ≤ x then (bs[x - a]?).getD (m.read x) else m.read x := by
  induction bs with
  | nil => intro m a x; simp [Memory.writeBytes]
  | cons b bs ih =>
    intro m a x
    rw [Memory.writeBytes, ih, read_write]
    by_cases hx : x = a
    · subst hx; simp
    · by_cases hlt : a + 1 ≤ x
      · have e : x - a = (x - (a + 1)) + 1 := by omega
        simp [hx, hlt, e, show a ≤ x by omega]
      · simp [hx, hlt, show ¬ a ≤ x by omega]

theorem read_writeBytes_outside (m : Memory) (a : Nat) (bs : List Byte) {x : Nat} (h : x < a ∨ a + bs.length ≤ x) :
    (m.writeBytes a bs).read x = m.read x := by
  rw [read_writeBytes]
  split
  · rw [List.getElem?_eq_none (by omega)]; rfl
  · rfl

/-! ### The canonical form -/

theorem wf_withoutCell {m : Memory} (h : m.wf) (a : Nat) : (m.withoutCell a).wf :=
  ⟨h.1.filter _, fun c hc => h.2 c (mem_withoutCell.mp hc).1⟩

theorem mem_insertCell {m : Memory} {a : Nat} {b : Byte} {c : Host.Cell} (h : c ∈ m.insertCell a b) : c = (a, b) ∨ c ∈ m := by
  induction m with
  | nil => simpa [Memory.insertCell] using h
  | cons d m ih =>
    obtain ⟨k, e⟩ := d
    simp only [Memory.insertCell] at h
    split at h
    · simpa using h
    · rcases List.mem_cons.mp h with h | h
      · simp [h]
      · rcases ih h with h | h <;> simp [h]

theorem wf_insertCell {m : Memory} (h : m.wf) {a : Nat} {b : Byte} (hm : ∀ c ∈ m, c.1 ≠ a) (ha : a < 4096)
    (hb : b ≠ unlistedByte) : (m.insertCell a b).wf := by
  refine ⟨?_, fun c hc => ?_⟩
  · have hp := h.1
    clear h
    induction m with
    | nil => simp [Memory.insertCell]
    | cons d m ih =>
      obtain ⟨k, e⟩ := d
      have hk : k ≠ a := hm (k, e) (by simp)
      have hm' : ∀ c ∈ m, c.1 ≠ a := fun c hc => hm c (by simp [hc])
      rw [List.pairwise_cons] at hp
      simp only [Memory.insertCell]
      split
      · rename_i hlt
        refine List.pairwise_cons.mpr ⟨fun c hc => ?_, List.pairwise_cons.mpr hp⟩
        rcases List.mem_cons.mp hc with rfl | hc
        · exact hlt
        · exact lt_trans hlt (hp.1 c hc)
      · refine List.pairwise_cons.mpr ⟨fun c hc => ?_, ih hm' hp.2⟩
        rcases mem_insertCell hc with rfl | hc
        · simp only; omega
        · exact hp.1 c hc
  · rcases mem_insertCell hc with rfl | hc
    · exact ⟨hb, ha⟩
    · exact h.2 c hc

/-- A write inside the address space keeps the canonical form. -/
theorem wf_write {m : Memory} (h : m.wf) {a : Nat} (ha : a < 4096) (b : Byte) : (m.write a b).wf := by
  unfold Memory.write
  split
  · exact wf_withoutCell h a
  · rename_i hb
    exact wf_insertCell (wf_withoutCell h a) (fun c hc => (mem_withoutCell.mp hc).2) ha hb

/-- A range write inside the address space keeps the canonical form. -/
theorem wf_writeBytes (bs : List Byte) : ∀ {m : Memory}, m.wf → ∀ {a : Nat}, a + bs.length ≤ 4096 → (m.writeBytes a bs).wf := by
  induction bs with
  | nil => intro m h a _; exact h
  | cons b bs ih =>
    intro m h a ha
    simp only [List.length_cons] at ha
    exact ih (wf_write h (by omega) b) (by omega)

/-- The memory after reset is canonical. -/
theorem wf_reset : State.reset.mem.wf := ⟨List.Pairwise.nil, by simp [State.reset]⟩

end Sys2Proof.Machine
end

