-- ==== Sys2Proof/Laws/State.lean ====
section
/-! SUPPORT. One lemma per field per update of the state, so that no later proof unfolds a record update. -/

namespace Sys2Proof

/-! ### The standard configuration (R4) -/

@[simp] theorem standard_cat0Mask : Config.standard.cat0Mask = 0x0FF#12 := rfl
@[simp] theorem standard_iWidth : Config.standard.iWidth = 12 := rfl
@[simp] theorem standard_stackDepth : Config.standard.stackDepth = some 16 := rfl
@[simp] theorem standard_retOffset : Config.standard.retOffset = 0 := rfl
@[simp] theorem standard_subnReversed : Config.standard.subnReversed = false := rfl
@[simp] theorem standard_keyOor : Config.standard.keyOor = false := rfl
@[simp] theorem standard_hasFont : Config.standard.hasFont = false := rfl

end Sys2Proof

namespace Sys2Proof.Machine

/-! ### State.putReg -/

@[simp] theorem putReg_v (s : State) (x : RegIdx) (b : Byte) : (s.putReg x b).v = s.v.set x.toNat b x.isLt := rfl
@[simp] theorem putReg_i (s : State) (x : RegIdx) (b : Byte) : (s.putReg x b).i = s.i := rfl
@[simp] theorem putReg_pc (s : State) (x : RegIdx) (b : Byte) : (s.putReg x b).pc = s.pc := rfl
@[simp] theorem putReg_mem (s : State) (x : RegIdx) (b : Byte) : (s.putReg x b).mem = s.mem := rfl
@[simp] theorem putReg_stack (s : State) (x : RegIdx) (b : Byte) : (s.putReg x b).stack = s.stack := rfl
@[simp] theorem putReg_dt (s : State) (x : RegIdx) (b : Byte) : (s.putReg x b).dt = s.dt := rfl
@[simp] theorem putReg_st (s : State) (x : RegIdx) (b : Byte) : (s.putReg x b).st = s.st := rfl
@[simp] theorem putReg_fb (s : State) (x : RegIdx) (b : Byte) : (s.putReg x b).fb = s.fb := rfl
@[simp] theorem putReg_wait (s : State) (x : RegIdx) (b : Byte) : (s.putReg x b).wait = s.wait := rfl
@[simp] theorem putReg_displayDirty (s : State) (x : RegIdx) (b : Byte) : (s.putReg x b).displayDirty = s.displayDirty := rfl
@[simp] theorem putReg_schedule (s : State) (x : RegIdx) (b : Byte) : (s.putReg x b).schedule = s.schedule := rfl
@[simp] theorem putReg_randomDraws (s : State) (x : RegIdx) (b : Byte) : (s.putReg x b).randomDraws = s.randomDraws := rfl
@[simp] theorem putReg_keySamples (s : State) (x : RegIdx) (b : Byte) : (s.putReg x b).keySamples = s.keySamples := rfl

/-! ### State.writeReg -/

@[simp] theorem writeReg_i (s : State) (x : RegIdx) (n : Int) : (s.writeReg x n).i = s.i := rfl
@[simp] theorem writeReg_pc (s : State) (x : RegIdx) (n : Int) : (s.writeReg x n).pc = s.pc := rfl
@[simp] theorem writeReg_mem (s : State) (x : RegIdx) (n : Int) : (s.writeReg x n).mem = s.mem := rfl
@[simp] theorem writeReg_stack (s : State) (x : RegIdx) (n : Int) : (s.writeReg x n).stack = s.stack := rfl
@[simp] theorem writeReg_dt (s : State) (x : RegIdx) (n : Int) : (s.writeReg x n).dt = s.dt := rfl
@[simp] theorem writeReg_st (s : State) (x : RegIdx) (n : Int) : (s.writeReg x n).st = s.st := rfl
@[simp] theorem writeReg_fb (s : State) (x : RegIdx) (n : Int) : (s.writeReg x n).fb = s.fb := rfl
@[simp] theorem writeReg_wait (s : State) (x : RegIdx) (n : Int) : (s.writeReg x n).wait = s.wait := rfl
@[simp] theorem writeReg_displayDirty (s : State) (x : RegIdx) (n : Int) : (s.writeReg x n).displayDirty = s.displayDirty := rfl
@[simp] theorem writeReg_schedule (s : State) (x : RegIdx) (n : Int) : (s.writeReg x n).schedule = s.schedule := rfl
@[simp] theorem writeReg_randomDraws (s : State) (x : RegIdx) (n : Int) : (s.writeReg x n).randomDraws = s.randomDraws := rfl
@[simp] theorem writeReg_keySamples (s : State) (x : RegIdx) (n : Int) : (s.writeReg x n).keySamples = s.keySamples := rfl

/-! ### State.writeIUnder and State.writeI -/

@[simp] theorem writeIUnder_i (c : Config) (s : State) (n : Int) :
    (s.writeIUnder c n).i = BitVec.ofInt 16 (n % ((2 ^ c.iWidth : Nat) : Int)) := rfl
@[simp] theorem writeIUnder_v (c : Config) (s : State) (n : Int) : (s.writeIUnder c n).v = s.v := rfl
@[simp] theorem writeIUnder_pc (c : Config) (s : State) (n : Int) : (s.writeIUnder c n).pc = s.pc := rfl
@[simp] theorem writeIUnder_mem (c : Config) (s : State) (n : Int) : (s.writeIUnder c n).mem = s.mem := rfl
@[simp] theorem writeIUnder_stack (c : Config) (s : State) (n : Int) : (s.writeIUnder c n).stack = s.stack := rfl
@[simp] theorem writeIUnder_dt (c : Config) (s : State) (n : Int) : (s.writeIUnder c n).dt = s.dt := rfl
@[simp] theorem writeIUnder_st (c : Config) (s : State) (n : Int) : (s.writeIUnder c n).st = s.st := rfl
@[simp] theorem writeIUnder_fb (c : Config) (s : State) (n : Int) : (s.writeIUnder c n).fb = s.fb := rfl
@[simp] theorem writeIUnder_wait (c : Config) (s : State) (n : Int) : (s.writeIUnder c n).wait = s.wait := rfl
@[simp] theorem writeIUnder_displayDirty (c : Config) (s : State) (n : Int) : (s.writeIUnder c n).displayDirty = s.displayDirty := rfl
@[simp] theorem writeIUnder_schedule (c : Config) (s : State) (n : Int) : (s.writeIUnder c n).schedule = s.schedule := rfl
@[simp] theorem writeIUnder_randomDraws (c : Config) (s : State) (n : Int) : (s.writeIUnder c n).randomDraws = s.randomDraws := rfl
@[simp] theorem writeIUnder_keySamples (c : Config) (s : State) (n : Int) : (s.writeIUnder c n).keySamples = s.keySamples := rfl

/-- The address register keeps the low `I_WIDTH` bits of what is written (R26). -/
theorem toNat_writeIUnder (c : Config) (s : State) (n : Nat) (h : c.iWidth ≤ 16) :
    (s.writeIUnder c n).i.toNat = n % 2 ^ c.iWidth := by
  have hp : 2 ^ c.iWidth ≤ 2 ^ 16 := Nat.pow_le_pow_right (by decide) h
  have hr : n % 2 ^ c.iWidth < 2 ^ c.iWidth := Nat.mod_lt _ (Nat.two_pow_pos _)
  rw [writeIUnder_i, ← Int.natCast_emod, BitVec.ofInt_natCast, BitVec.toNat_ofNat, Nat.mod_eq_of_lt (Nat.lt_of_lt_of_le hr hp)]

/-- At the default width it keeps twelve (R26, D4). -/
theorem toNat_writeI (s : State) (n : Nat) : (s.writeI n).i.toNat = n % 4096 := toNat_writeIUnder Config.standard s n (by decide)

@[simp] theorem writeI_i (s : State) (n : Int) : (s.writeI n).i = BitVec.ofInt 16 (n % 4096) := rfl
@[simp] theorem writeI_v (s : State) (n : Int) : (s.writeI n).v = s.v := rfl
@[simp] theorem writeI_pc (s : State) (n : Int) : (s.writeI n).pc = s.pc := rfl
@[simp] theorem writeI_mem (s : State) (n : Int) : (s.writeI n).mem = s.mem := rfl
@[simp] theorem writeI_stack (s : State) (n : Int) : (s.writeI n).stack = s.stack := rfl
@[simp] theorem writeI_dt (s : State) (n : Int) : (s.writeI n).dt = s.dt := rfl
@[simp] theorem writeI_st (s : State) (n : Int) : (s.writeI n).st = s.st := rfl
@[simp] theorem writeI_fb (s : State) (n : Int) : (s.writeI n).fb = s.fb := rfl
@[simp] theorem writeI_wait (s : State) (n : Int) : (s.writeI n).wait = s.wait := rfl
@[simp] theorem writeI_displayDirty (s : State) (n : Int) : (s.writeI n).displayDirty = s.displayDirty := rfl
@[simp] theorem writeI_schedule (s : State) (n : Int) : (s.writeI n).schedule = s.schedule := rfl
@[simp] theorem writeI_randomDraws (s : State) (n : Int) : (s.writeI n).randomDraws = s.randomDraws := rfl
@[simp] theorem writeI_keySamples (s : State) (n : Int) : (s.writeI n).keySamples = s.keySamples := rfl

/-! ### State.writePc -/

@[simp] theorem writePc_v (s : State) (n : Nat) : (s.writePc n).v = s.v := rfl
@[simp] theorem writePc_i (s : State) (n : Nat) : (s.writePc n).i = s.i := rfl
@[simp] theorem writePc_pc (s : State) (n : Nat) : (s.writePc n).pc = BitVec.ofNat 16 n := rfl
@[simp] theorem writePc_mem (s : State) (n : Nat) : (s.writePc n).mem = s.mem := rfl
@[simp] theorem writePc_stack (s : State) (n : Nat) : (s.writePc n).stack = s.stack := rfl
@[simp] theorem writePc_dt (s : State) (n : Nat) : (s.writePc n).dt = s.dt := rfl
@[simp] theorem writePc_st (s : State) (n : Nat) : (s.writePc n).st = s.st := rfl
@[simp] theorem writePc_fb (s : State) (n : Nat) : (s.writePc n).fb = s.fb := rfl
@[simp] theorem writePc_wait (s : State) (n : Nat) : (s.writePc n).wait = s.wait := rfl
@[simp] theorem writePc_displayDirty (s : State) (n : Nat) : (s.writePc n).displayDirty = s.displayDirty := rfl
@[simp] theorem writePc_schedule (s : State) (n : Nat) : (s.writePc n).schedule = s.schedule := rfl
@[simp] theorem writePc_randomDraws (s : State) (n : Nat) : (s.writePc n).randomDraws = s.randomDraws := rfl
@[simp] theorem writePc_keySamples (s : State) (n : Nat) : (s.writePc n).keySamples = s.keySamples := rfl

/-! ### State.writeDt -/

@[simp] theorem writeDt_v (s : State) (n : Int) : (s.writeDt n).v = s.v := rfl
@[simp] theorem writeDt_i (s : State) (n : Int) : (s.writeDt n).i = s.i := rfl
@[simp] theorem writeDt_pc (s : State) (n : Int) : (s.writeDt n).pc = s.pc := rfl
@[simp] theorem writeDt_mem (s : State) (n : Int) : (s.writeDt n).mem = s.mem := rfl
@[simp] theorem writeDt_stack (s : State) (n : Int) : (s.writeDt n).stack = s.stack := rfl
@[simp] theorem writeDt_dt (s : State) (n : Int) : (s.writeDt n).dt = BitVec.ofInt 8 n := rfl
@[simp] theorem writeDt_st (s : State) (n : Int) : (s.writeDt n).st = s.st := rfl
@[simp] theorem writeDt_fb (s : State) (n : Int) : (s.writeDt n).fb = s.fb := rfl
@[simp] theorem writeDt_wait (s : State) (n : Int) : (s.writeDt n).wait = s.wait := rfl
@[simp] theorem writeDt_displayDirty (s : State) (n : Int) : (s.writeDt n).displayDirty = s.displayDirty := rfl
@[simp] theorem writeDt_schedule (s : State) (n : Int) : (s.writeDt n).schedule = s.schedule := rfl
@[simp] theorem writeDt_randomDraws (s : State) (n : Int) : (s.writeDt n).randomDraws = s.randomDraws := rfl
@[simp] theorem writeDt_keySamples (s : State) (n : Int) : (s.writeDt n).keySamples = s.keySamples := rfl

/-! ### State.writeSt -/

@[simp] theorem writeSt_v (s : State) (n : Int) : (s.writeSt n).v = s.v := rfl
@[simp] theorem writeSt_i (s : State) (n : Int) : (s.writeSt n).i = s.i := rfl
@[simp] theorem writeSt_pc (s : State) (n : Int) : (s.writeSt n).pc = s.pc := rfl
@[simp] theorem writeSt_mem (s : State) (n : Int) : (s.writeSt n).mem = s.mem := rfl
@[simp] theorem writeSt_stack (s : State) (n : Int) : (s.writeSt n).stack = s.stack := rfl
@[simp] theorem writeSt_dt (s : State) (n : Int) : (s.writeSt n).dt = s.dt := rfl
@[simp] theorem writeSt_st (s : State) (n : Int) : (s.writeSt n).st = BitVec.ofInt 8 n := rfl
@[simp] theorem writeSt_fb (s : State) (n : Int) : (s.writeSt n).fb = s.fb := rfl
@[simp] theorem writeSt_wait (s : State) (n : Int) : (s.writeSt n).wait = s.wait := rfl
@[simp] theorem writeSt_displayDirty (s : State) (n : Int) : (s.writeSt n).displayDirty = s.displayDirty := rfl
@[simp] theorem writeSt_schedule (s : State) (n : Int) : (s.writeSt n).schedule = s.schedule := rfl
@[simp] theorem writeSt_randomDraws (s : State) (n : Int) : (s.writeSt n).randomDraws = s.randomDraws := rfl
@[simp] theorem writeSt_keySamples (s : State) (n : Int) : (s.writeSt n).keySamples = s.keySamples := rfl

/-! ### State.writeResultThenFlag -/

@[simp] theorem writeResultThenFlag_i (s : State) (x : RegIdx) (n : Int) (b : Byte) : (s.writeResultThenFlag x n b).i = s.i := rfl
@[simp] theorem writeResultThenFlag_pc (s : State) (x : RegIdx) (n : Int) (b : Byte) : (s.writeResultThenFlag x n b).pc = s.pc := rfl
@[simp] theorem writeResultThenFlag_mem (s : State) (x : RegIdx) (n : Int) (b : Byte) : (s.writeResultThenFlag x n b).mem = s.mem := rfl
@[simp] theorem writeResultThenFlag_stack (s : State) (x : RegIdx) (n : Int) (b : Byte) : (s.writeResultThenFlag x n b).stack = s.stack := rfl
@[simp] theorem writeResultThenFlag_dt (s : State) (x : RegIdx) (n : Int) (b : Byte) : (s.writeResultThenFlag x n b).dt = s.dt := rfl
@[simp] theorem writeResultThenFlag_st (s : State) (x : RegIdx) (n : Int) (b : Byte) : (s.writeResultThenFlag x n b).st = s.st := rfl
@[simp] theorem writeResultThenFlag_fb (s : State) (x : RegIdx) (n : Int) (b : Byte) : (s.writeResultThenFlag x n b).fb = s.fb := rfl
@[simp] theorem writeResultThenFlag_wait (s : State) (x : RegIdx) (n : Int) (b : Byte) : (s.writeResultThenFlag x n b).wait = s.wait := rfl
@[simp] theorem writeResultThenFlag_displayDirty (s : State) (x : RegIdx) (n : Int) (b : Byte) : (s.writeResultThenFlag x n b).displayDirty = s.displayDirty := rfl
@[simp] theorem writeResultThenFlag_schedule (s : State) (x : RegIdx) (n : Int) (b : Byte) : (s.writeResultThenFlag x n b).schedule = s.schedule := rfl
@[simp] theorem writeResultThenFlag_randomDraws (s : State) (x : RegIdx) (n : Int) (b : Byte) : (s.writeResultThenFlag x n b).randomDraws = s.randomDraws := rfl
@[simp] theorem writeResultThenFlag_keySamples (s : State) (x : RegIdx) (n : Int) (b : Byte) : (s.writeResultThenFlag x n b).keySamples = s.keySamples := rfl

/-! ### State.drawn -/

@[simp] theorem drawn_v (s : State) : (s.drawn).v = s.v := rfl
@[simp] theorem drawn_i (s : State) : (s.drawn).i = s.i := rfl
@[simp] theorem drawn_pc (s : State) : (s.drawn).pc = s.pc := rfl
@[simp] theorem drawn_mem (s : State) : (s.drawn).mem = s.mem := rfl
@[simp] theorem drawn_stack (s : State) : (s.drawn).stack = s.stack := rfl
@[simp] theorem drawn_dt (s : State) : (s.drawn).dt = s.dt := rfl
@[simp] theorem drawn_st (s : State) : (s.drawn).st = s.st := rfl
@[simp] theorem drawn_fb (s : State) : (s.drawn).fb = s.fb := rfl
@[simp] theorem drawn_wait (s : State) : (s.drawn).wait = s.wait := rfl
@[simp] theorem drawn_displayDirty (s : State) : (s.drawn).displayDirty = s.displayDirty := rfl
@[simp] theorem drawn_schedule (s : State) : (s.drawn).schedule = s.schedule := rfl
@[simp] theorem drawn_randomDraws (s : State) : (s.drawn).randomDraws = s.randomDraws + 1 := rfl
@[simp] theorem drawn_keySamples (s : State) : (s.drawn).keySamples = s.keySamples := rfl

/-! ### tickGeneral -/

@[simp] theorem tickGeneral_v (s : State) : (tickGeneral s).v = s.v := rfl
@[simp] theorem tickGeneral_i (s : State) : (tickGeneral s).i = s.i := rfl
@[simp] theorem tickGeneral_pc (s : State) : (tickGeneral s).pc = s.pc := rfl
@[simp] theorem tickGeneral_mem (s : State) : (tickGeneral s).mem = s.mem := rfl
@[simp] theorem tickGeneral_stack (s : State) : (tickGeneral s).stack = s.stack := rfl
@[simp] theorem tickGeneral_dt (s : State) : (tickGeneral s).dt = tickedDown s.dt := rfl
@[simp] theorem tickGeneral_st (s : State) : (tickGeneral s).st = s.st := rfl
@[simp] theorem tickGeneral_fb (s : State) : (tickGeneral s).fb = s.fb := rfl
@[simp] theorem tickGeneral_wait (s : State) : (tickGeneral s).wait = s.wait := rfl
@[simp] theorem tickGeneral_displayDirty (s : State) : (tickGeneral s).displayDirty = s.displayDirty := rfl
@[simp] theorem tickGeneral_schedule (s : State) : (tickGeneral s).schedule = s.schedule := rfl
@[simp] theorem tickGeneral_randomDraws (s : State) : (tickGeneral s).randomDraws = s.randomDraws := rfl
@[simp] theorem tickGeneral_keySamples (s : State) : (tickGeneral s).keySamples = s.keySamples := rfl

/-! ### tickSound -/

@[simp] theorem tickSound_v (s : State) : (tickSound s).v = s.v := rfl
@[simp] theorem tickSound_i (s : State) : (tickSound s).i = s.i := rfl
@[simp] theorem tickSound_pc (s : State) : (tickSound s).pc = s.pc := rfl
@[simp] theorem tickSound_mem (s : State) : (tickSound s).mem = s.mem := rfl
@[simp] theorem tickSound_stack (s : State) : (tickSound s).stack = s.stack := rfl
@[simp] theorem tickSound_dt (s : State) : (tickSound s).dt = s.dt := rfl
@[simp] theorem tickSound_st (s : State) : (tickSound s).st = tickedDown s.st := rfl
@[simp] theorem tickSound_fb (s : State) : (tickSound s).fb = s.fb := rfl
@[simp] theorem tickSound_wait (s : State) : (tickSound s).wait = s.wait := rfl
@[simp] theorem tickSound_displayDirty (s : State) : (tickSound s).displayDirty = s.displayDirty := rfl
@[simp] theorem tickSound_schedule (s : State) : (tickSound s).schedule = s.schedule := rfl
@[simp] theorem tickSound_randomDraws (s : State) : (tickSound s).randomDraws = s.randomDraws := rfl
@[simp] theorem tickSound_keySamples (s : State) : (tickSound s).keySamples = s.keySamples := rfl

/-! ### resetCore -/

@[simp] theorem resetCore_v (s : State) : (resetCore s).v = State.reset.v := rfl
@[simp] theorem resetCore_i (s : State) : (resetCore s).i = State.reset.i := rfl
@[simp] theorem resetCore_pc (s : State) : (resetCore s).pc = State.reset.pc := rfl
@[simp] theorem resetCore_mem (s : State) : (resetCore s).mem = State.reset.mem := rfl
@[simp] theorem resetCore_stack (s : State) : (resetCore s).stack = State.reset.stack := rfl
@[simp] theorem resetCore_dt (s : State) : (resetCore s).dt = State.reset.dt := rfl
@[simp] theorem resetCore_st (s : State) : (resetCore s).st = State.reset.st := rfl
@[simp] theorem resetCore_fb (s : State) : (resetCore s).fb = State.reset.fb := rfl
@[simp] theorem resetCore_wait (s : State) : (resetCore s).wait = State.reset.wait := rfl
@[simp] theorem resetCore_displayDirty (s : State) : (resetCore s).displayDirty = State.reset.displayDirty := rfl
@[simp] theorem resetCore_schedule (s : State) : (resetCore s).schedule = s.schedule := rfl
@[simp] theorem resetCore_randomDraws (s : State) : (resetCore s).randomDraws = s.randomDraws := rfl
@[simp] theorem resetCore_keySamples (s : State) : (resetCore s).keySamples = s.keySamples := rfl

/-! ### State.sampled -/

@[simp] theorem sampled_v (s : State) (k : Byte) : (s.sampled k).v = s.v := by unfold State.sampled; split <;> rfl
@[simp] theorem sampled_i (s : State) (k : Byte) : (s.sampled k).i = s.i := by unfold State.sampled; split <;> rfl
@[simp] theorem sampled_pc (s : State) (k : Byte) : (s.sampled k).pc = s.pc := by unfold State.sampled; split <;> rfl
@[simp] theorem sampled_mem (s : State) (k : Byte) : (s.sampled k).mem = s.mem := by unfold State.sampled; split <;> rfl
@[simp] theorem sampled_stack (s : State) (k : Byte) : (s.sampled k).stack = s.stack := by unfold State.sampled; split <;> rfl
@[simp] theorem sampled_dt (s : State) (k : Byte) : (s.sampled k).dt = s.dt := by unfold State.sampled; split <;> rfl
@[simp] theorem sampled_st (s : State) (k : Byte) : (s.sampled k).st = s.st := by unfold State.sampled; split <;> rfl
@[simp] theorem sampled_fb (s : State) (k : Byte) : (s.sampled k).fb = s.fb := by unfold State.sampled; split <;> rfl
@[simp] theorem sampled_wait (s : State) (k : Byte) : (s.sampled k).wait = s.wait := by unfold State.sampled; split <;> rfl
@[simp] theorem sampled_displayDirty (s : State) (k : Byte) : (s.sampled k).displayDirty = s.displayDirty := by unfold State.sampled; split <;> rfl
@[simp] theorem sampled_schedule (s : State) (k : Byte) : (s.sampled k).schedule = s.schedule := by unfold State.sampled; split <;> rfl
@[simp] theorem sampled_randomDraws (s : State) (k : Byte) : (s.sampled k).randomDraws = s.randomDraws := by unfold State.sampled; split <;> rfl

/-! ### State.loadRegs -/

@[simp] theorem loadRegs_i (bs : List Byte) : ∀ (s : State) (k : Nat), (s.loadRegs k bs).i = s.i := by
  induction bs with
  | nil => intro s k; rfl
  | cons b bs ih => intro s k; exact ih _ _
@[simp] theorem loadRegs_pc (bs : List Byte) : ∀ (s : State) (k : Nat), (s.loadRegs k bs).pc = s.pc := by
  induction bs with
  | nil => intro s k; rfl
  | cons b bs ih => intro s k; exact ih _ _
@[simp] theorem loadRegs_mem (bs : List Byte) : ∀ (s : State) (k : Nat), (s.loadRegs k bs).mem = s.mem := by
  induction bs with
  | nil => intro s k; rfl
  | cons b bs ih => intro s k; exact ih _ _
@[simp] theorem loadRegs_stack (bs : List Byte) : ∀ (s : State) (k : Nat), (s.loadRegs k bs).stack = s.stack := by
  induction bs with
  | nil => intro s k; rfl
  | cons b bs ih => intro s k; exact ih _ _
@[simp] theorem loadRegs_dt (bs : List Byte) : ∀ (s : State) (k : Nat), (s.loadRegs k bs).dt = s.dt := by
  induction bs with
  | nil => intro s k; rfl
  | cons b bs ih => intro s k; exact ih _ _
@[simp] theorem loadRegs_st (bs : List Byte) : ∀ (s : State) (k : Nat), (s.loadRegs k bs).st = s.st := by
  induction bs with
  | nil => intro s k; rfl
  | cons b bs ih => intro s k; exact ih _ _
@[simp] theorem loadRegs_fb (bs : List Byte) : ∀ (s : State) (k : Nat), (s.loadRegs k bs).fb = s.fb := by
  induction bs with
  | nil => intro s k; rfl
  | cons b bs ih => intro s k; exact ih _ _
@[simp] theorem loadRegs_wait (bs : List Byte) : ∀ (s : State) (k : Nat), (s.loadRegs k bs).wait = s.wait := by
  induction bs with
  | nil => intro s k; rfl
  | cons b bs ih => intro s k; exact ih _ _
@[simp] theorem loadRegs_displayDirty (bs : List Byte) : ∀ (s : State) (k : Nat), (s.loadRegs k bs).displayDirty = s.displayDirty := by
  induction bs with
  | nil => intro s k; rfl
  | cons b bs ih => intro s k; exact ih _ _
@[simp] theorem loadRegs_schedule (bs : List Byte) : ∀ (s : State) (k : Nat), (s.loadRegs k bs).schedule = s.schedule := by
  induction bs with
  | nil => intro s k; rfl
  | cons b bs ih => intro s k; exact ih _ _
@[simp] theorem loadRegs_randomDraws (bs : List Byte) : ∀ (s : State) (k : Nat), (s.loadRegs k bs).randomDraws = s.randomDraws := by
  induction bs with
  | nil => intro s k; rfl
  | cons b bs ih => intro s k; exact ih _ _
@[simp] theorem loadRegs_keySamples (bs : List Byte) : ∀ (s : State) (k : Nat), (s.loadRegs k bs).keySamples = s.keySamples := by
  induction bs with
  | nil => intro s k; rfl
  | cons b bs ih => intro s k; exact ih _ _

/-! ### Reading a register -/

/-- A register reads what was last put there. -/
theorem reg_putReg (s : State) (x r : RegIdx) (b : Byte) : (s.putReg x b).reg r = if r = x then b else s.reg r := by
  simp only [State.reg, State.putReg, Vector.getElem_set]
  by_cases h : r = x
  · simp [h]
  · have : x.toNat ≠ r.toNat := fun e => h (BitVec.eq_of_toNat_eq e.symm)
    simp [h, this]

@[simp] theorem reg_putReg_same (s : State) (x : RegIdx) (b : Byte) : (s.putReg x b).reg x = b := by simp [reg_putReg]

theorem reg_putReg_ne (s : State) {x r : RegIdx} (b : Byte) (h : r ≠ x) : (s.putReg x b).reg r = s.reg r := by
  simp [reg_putReg, h]

/-- A register write stores the integer modulo 256 (R22). -/
theorem reg_writeReg (s : State) (x r : RegIdx) (n : Int) :
    (s.writeReg x n).reg r = if r = x then BitVec.ofInt 8 n else s.reg r := reg_putReg s x r _

/-- Result, then flag: `VF` ends as the flag, whatever `x` is (R131). -/
theorem reg_writeResultThenFlag (s : State) (x r : RegIdx) (n : Int) (f : Byte) :
    (s.writeResultThenFlag x n f).reg r = if r = flagReg then f else if r = x then BitVec.ofInt 8 n else s.reg r := by
  simp only [State.writeResultThenFlag, reg_putReg, reg_writeReg]

@[simp] theorem reg_writeI (s : State) (n : Int) (r : RegIdx) : (s.writeI n).reg r = s.reg r := rfl
@[simp] theorem reg_writePc (s : State) (n : Nat) (r : RegIdx) : (s.writePc n).reg r = s.reg r := rfl
@[simp] theorem reg_writeDt (s : State) (n : Int) (r : RegIdx) : (s.writeDt n).reg r = s.reg r := rfl
@[simp] theorem reg_writeSt (s : State) (n : Int) (r : RegIdx) : (s.writeSt n).reg r = s.reg r := rfl
@[simp] theorem reg_drawn (s : State) (r : RegIdx) : (s.drawn).reg r = s.reg r := rfl
@[simp] theorem reg_tickGeneral (s : State) (r : RegIdx) : (tickGeneral s).reg r = s.reg r := rfl
@[simp] theorem reg_tickSound (s : State) (r : RegIdx) : (tickSound s).reg r = s.reg r := rfl
@[simp] theorem reg_sampled (s : State) (k : Byte) (r : RegIdx) : (s.sampled k).reg r = s.reg r := by
  unfold State.reg; simp

@[simp] theorem reg_reset (r : RegIdx) : State.reset.reg r = 0#8 := by
  simp [State.reg, State.reset]

/-- A run of registers loaded from number `k`: register `r` holds byte `r - k`, the others are as before (R205). -/
theorem reg_loadRegs (bs : List Byte) :
    ∀ (s : State) (k : Nat), k + bs.length ≤ 16 → ∀ r : RegIdx,
      (s.loadRegs k bs).reg r = if k ≤ r.toNat then (bs[r.toNat - k]?).getD (s.reg r) else s.reg r := by
  induction bs with
  | nil => intro s k _ r; simp [State.loadRegs]
  | cons b bs ih =>
    intro s k hk r
    simp only [List.length_cons] at hk
    have hko : (BitVec.ofNat 4 k).toNat = k := by simp; omega
    rw [State.loadRegs, ih _ _ (by omega) r, reg_putReg]
    by_cases hr : r = BitVec.ofNat 4 k
    · subst hr; simp [hko]
    · have hne : r.toNat ≠ k := fun e => hr (BitVec.eq_of_toNat_eq (by rw [hko, e]))
      by_cases hlt : k + 1 ≤ r.toNat
      · have e : r.toNat - k = (r.toNat - (k + 1)) + 1 := by omega
        simp [hr, hlt, e, show k ≤ r.toNat by omega]
      · simp [hr, hlt, show ¬ k ≤ r.toNat by omega]

/-- States with equal registers, seen one at a time, have equal register files. -/
theorem v_ext {s t : State} (h : ∀ r : RegIdx, s.reg r = t.reg r) : s.v = t.v := by
  apply Vector.ext
  intro k hk
  have := h (BitVec.ofNat 4 k)
  have hko : (BitVec.ofNat 4 k).toNat = k := by simp; omega
  simpa only [State.reg, hko] using this

end Sys2Proof.Machine
end

