-- ==== Sys2Proof/Laws/Ops.lean ====
section
/-! SUPPORT. One lemma per shared operation, saying once everything it can do; proofs cite these and do not unfold. -/

namespace Sys2Proof.Machine

/-! ### Ranges (R52) -/

/-- No address of the range is outside exactly when it is empty or ends inside memory. -/
theorem lowestOutside_none_iff (a n : Nat) : lowestOutside a n = none ↔ n = 0 ∨ a + n ≤ 4096 := by
  unfold lowestOutside
  split
  · simp_all
  · rename_i h; split <;> simp_all

theorem lowestOutside_some (a n : Nat) (h : ¬ (n = 0 ∨ a + n ≤ 4096)) : lowestOutside a n = some (max a 4096) := by
  unfold lowestOutside
  rw [if_neg h]
  split <;> simp <;> omega

/-- Where the range is inside memory, the read gives its cells. -/
theorem memRead_inside (s : State) {a n : Nat} (h : n = 0 ∨ a + n ≤ 4096) :
    s.memRead a n = .ok ((List.range n).map fun k => s.mem.read (a + k)) := by
  simp [State.memRead, (lowestOutside_none_iff a n).mpr h]

/-- Where it is not, the read raises `OutOfRange` at its lowest outside address. -/
theorem memRead_outside (s : State) {a n : Nat} (h : ¬ (n = 0 ∨ a + n ≤ 4096)) :
    s.memRead a n = .error (.outOfRange (max a 4096)) := by
  simp [State.memRead, lowestOutside_some a n h]

theorem memStore_inside (s : State) {a : Nat} {bs : List Byte} (h : bs.length = 0 ∨ a + bs.length ≤ 4096) :
    s.memStore a bs = .ok { s with mem := s.mem.writeBytes a bs } := by
  simp [State.memStore, (lowestOutside_none_iff a bs.length).mpr h]

theorem memStore_outside (s : State) {a : Nat} {bs : List Byte} (h : ¬ (bs.length = 0 ∨ a + bs.length ≤ 4096)) :
    s.memStore a bs = .error (.outOfRange (max a 4096)) := by
  simp [State.memStore, lowestOutside_some a bs.length h]

/-- Everything a store that answers can have done. -/
theorem memStore_ok {s t : State} {a : Nat} {bs : List Byte} (h : s.memStore a bs = .ok t) :
    (bs.length = 0 ∨ a + bs.length ≤ 4096) ∧ t = { s with mem := s.mem.writeBytes a bs } := by
  by_cases hr : bs.length = 0 ∨ a + bs.length ≤ 4096
  · rw [memStore_inside s hr] at h; exact ⟨hr, (Except.ok.inj h).symm⟩
  · rw [memStore_outside s hr] at h; cases h

theorem memWrite_ok {s t : State} {a : Nat} {ns : List Int} (h : s.memWrite a ns = .ok t) :
    (ns.length = 0 ∨ a + ns.length ≤ 4096) ∧ t = { s with mem := s.mem.writeBytes a (ns.map (BitVec.ofInt 8)) } := by
  simpa using memStore_ok h

/-- A store keeps memory canonical. -/
theorem memStore_wf {s t : State} {a : Nat} {bs : List Byte} (h : s.memStore a bs = .ok t) (hw : s.mem.wf) : t.mem.wf := by
  obtain ⟨hr, rfl⟩ := memStore_ok h
  rcases hr with hr | hr
  · rw [List.length_eq_zero_iff.mp hr]; exact hw
  · exact wf_writeBytes bs hw hr

/-! ### Call stack (R30) -/

/-- The standard stack is full at sixteen entries (R4, D5). -/
theorem standard_full_iff (n : Nat) : Config.standard.stackDepth = some n ↔ n = 16 :=
  ⟨fun h => (Option.some.inj h).symm, fun h => by rw [h]; rfl⟩

theorem push_room (s : State) (a : Nat) (h : s.stack.length ≠ 16) :
    s.push a = .ok { s with stack := s.stack ++ [BitVec.ofNat 12 a] } :=
  if_neg fun e => h ((standard_full_iff _).mp e)

theorem push_full (s : State) (a : Nat) (h : s.stack.length = 16) : s.push a = .error .stackOverflow :=
  if_pos ((standard_full_iff _).mpr h)

/-- Everything a push that answers can have done. -/
theorem push_ok {s t : State} {a : Nat} (h : s.push a = .ok t) :
    s.stack.length ≠ 16 ∧ t = { s with stack := s.stack ++ [BitVec.ofNat 12 a] } := by
  by_cases hl : s.stack.length = 16
  · rw [push_full s a hl] at h; cases h
  · rw [push_room s a hl] at h; exact ⟨hl, (Except.ok.inj h).symm⟩

theorem pop_append (s : State) {rest : List Addr} {a : Addr} (h : s.stack = rest ++ [a]) :
    s.pop = .ok (a, { s with stack := rest }) := by
  simp [State.pop, h]

theorem pop_empty (s : State) (h : s.stack = []) : s.pop = .error .stackUnderflow := by
  simp [State.pop, h]

theorem pop_ok {s t : State} {a : Addr} (h : s.pop = .ok (a, t)) :
    s.stack = t.stack ++ [a] ∧ t = { s with stack := t.stack } := by
  rcases List.eq_nil_or_concat s.stack with e | ⟨rest, b, e⟩
  · rw [pop_empty s e] at h; cases h
  · rw [pop_append s (by simpa using e)] at h
    cases h
    exact ⟨by simpa using e, rfl⟩

/-! ### How a cycle ends -/

/-- An operation that goes on answered with what its primitive gave. -/
theorem orRaise_eq_next {α : Type} {r : Except Fault α} {k : α → Result} {t : State} :
    orRaise r k = .next t ↔ ∃ x, r = .ok x ∧ k x = .next t := by
  cases r <;> simp [orRaise, raise]

theorem orRaise_eq_fault {α : Type} {r : Except Fault α} {k : α → Result} {f : Fault} :
    orRaise r k = .fault f ↔ r = .error f ∨ ∃ x, r = .ok x ∧ k x = .fault f := by
  cases r <;> simp [orRaise, raise]

@[simp] theorem orRaise_ok {α : Type} (x : α) (k : α → Result) : orRaise (.ok x) k = k x := rfl

@[simp] theorem orRaise_error {α : Type} (f : Fault) (k : α → Result) : orRaise (.error f) k = .fault f := rfl

/-- A completed cycle: `pc` and `display_dirty` change, nothing else. -/
theorem retire_eq (s : State) (n : Nat) : s.retire n = .next { s with pc := BitVec.ofNat 16 n, displayDirty := false } := rfl

theorem retireDrawn_eq (s : State) (n : Nat) :
    s.retireDrawn n = .next { s with pc := BitVec.ofNat 16 n, displayDirty := true } := rfl

theorem retire_eq_next {s t : State} {n : Nat} :
    s.retire n = .next t ↔ t = { s with pc := BitVec.ofNat 16 n, displayDirty := false } := by
  rw [retire_eq]; constructor
  · intro h; cases h; rfl
  · rintro rfl; rfl

theorem retireDrawn_eq_next {s t : State} {n : Nat} :
    s.retireDrawn n = .next t ↔ t = { s with pc := BitVec.ofNat 16 n, displayDirty := true } := by
  rw [retireDrawn_eq]; constructor
  · intro h; cases h; rfl
  · rintro rfl; rfl

/-- `pc + 2` as the program counter's own sum. -/
theorem ofNat_nextSequential (s : State) : BitVec.ofNat 16 s.nextSequential = s.pc + 2#16 := by
  apply BitVec.eq_of_toNat_eq; simp [State.nextSequential]

theorem ofNat_nextSkip (s : State) (b : Bool) : BitVec.ofNat 16 (s.nextSkip b) = if b then s.pc + 4#16 else s.pc + 2#16 := by
  apply BitVec.eq_of_toNat_eq; cases b <;> simp [State.nextSkip]

/-! ### The fetch (R54, R100) -/

theorem fetch_inside (s : State) (h : s.pc.toNat ≤ 4094) :
    s.fetch = .ok (s.mem.read s.pc.toNat ++ s.mem.read (s.pc.toNat + 1)) := by
  rw [State.fetch, memRead_inside s (by omega)]; rfl

theorem fetch_outside (s : State) (h : 4094 < s.pc.toNat) : s.fetch = .error (.outOfRange (max s.pc.toNat 4096)) := by
  rw [State.fetch, memRead_outside s (by omega)]; rfl

theorem fetch_ok {s : State} {w : Word} (h : s.fetch = .ok w) :
    s.pc.toNat ≤ 4094 ∧ w = s.mem.read s.pc.toNat ++ s.mem.read (s.pc.toNat + 1) := by
  by_cases hp : s.pc.toNat ≤ 4094
  · rw [fetch_inside s hp] at h; exact ⟨hp, (Except.ok.inj h).symm⟩
  · rw [fetch_outside s (by omega)] at h; cases h

/-- The fetch sees `pc` and memory only. -/
theorem fetch_congr {s t : State} (hp : s.pc = t.pc) (hm : s.mem = t.mem) : s.fetch = t.fetch := by
  simp only [State.fetch, State.memRead, hp, hm]

/-! ### Runs of registers (R204) -/

@[simp] theorem regsUpTo_length (s : State) (x : RegIdx) : (s.regsUpTo x).length = x.toNat + 1 := by
  simp [State.regsUpTo]

theorem regsUpTo_getElem? (s : State) (x r : RegIdx) (h : r.toNat ≤ x.toNat) : (s.regsUpTo x)[r.toNat]? = some (s.reg r) := by
  have : r.toNat < x.toNat + 1 := by omega
  simp [State.regsUpTo, this]

/-! ### Flags -/

theorem flagByte_cases (b : Bool) : flagByte b = 0#8 ∨ flagByte b = 1#8 := by cases b <;> simp [flagByte]

end Sys2Proof.Machine
end

