-- ==== Sys2Proof/Laws/Cycle.lean ====
section
/-! SUPPORT. Everything a cycle and a step can do. -/

namespace Sys2Proof.Machine

/-- A cycle that answers a next state was suspended and did nothing, or ran the instruction it fetched (R100). -/
theorem cycle_eq_next {s t : State} :
    cycle s = .next t ↔
      (∃ x, s.wait = some x ∧ t = s) ∨
      (s.wait = none ∧ ∃ w i, s.fetch = .ok w ∧ decodeWord w = some i ∧ exec i s = .next t) := by
  unfold cycle cycleWith
  cases hw : s.wait with
  | some x => simp [eq_comm]
  | none =>
    simp only [orRaise_eq_next, reduceCtorEq, false_and, exists_false, true_and, false_or]
    constructor
    · rintro ⟨w, hf, h⟩
      cases hd : decodeWord w with
      | none => rw [hd] at h; cases h
      | some i => rw [hd] at h; exact ⟨w, i, hf, hd, h⟩
    · rintro ⟨w, i, hf, hd, h⟩; exact ⟨w, hf, by rw [hd]; exact h⟩

/-- A suspended cycle changes nothing (R100, R185). -/
theorem cycle_suspended {s : State} {x : RegIdx} (h : s.wait = some x) : cycle s = .next s := by
  simp [cycle, cycleWith, h]

/-- A running cycle whose fetched word decodes runs that instruction (R100). -/
theorem cycle_runs {s : State} {w : Word} {i : Instr} (hw : s.wait = none) (hf : s.fetch = .ok w) (hd : decodeWord w = some i) :
    cycle s = exec i s := by
  simp [cycle, cycleWith, hw, hf, hd]

theorem cycle_fetch_fault {s : State} {f : Fault} (hw : s.wait = none) (hf : s.fetch = .error f) : cycle s = .fault f := by
  simp [cycle, cycleWith, hw, hf]

theorem cycle_unknown {s : State} {w : Word} (hw : s.wait = none) (hf : s.fetch = .ok w) (hd : decodeWord w = none) :
    cycle s = .fault (.unknownOpcode w) := by
  simp [cycle, cycleWith, hw, hf, hd, raise]

/-- The next cycle fetches `i` exactly when `pc` names two cells whose word decodes to it (R54, R100). -/
theorem fetchedInstr_eq_some {s : State} {i : Instr} :
    s.fetchedInstr = some i ↔ ∃ w, s.fetch = .ok w ∧ decodeWord w = some i := by
  unfold State.fetchedInstr
  cases s.fetch <;> simp

/-- What is fetched depends on `pc` and memory only. -/
theorem fetchedInstr_congr {s t : State} (hp : s.pc = t.pc) (hm : s.mem = t.mem) : s.fetchedInstr = t.fetchedInstr := by
  unfold State.fetchedInstr; rw [fetch_congr hp hm]

/-- The normal end of a run (R261): running, with a jump to its own address at `pc`. -/
theorem atSelfJump_iff {s : State} :
    s.atSelfJump = true ↔ s.wait = none ∧ ∃ nnn : Addr, s.fetchedInstr = some (.jp nnn) ∧ nnn.toNat = s.pc.toNat := by
  unfold State.atSelfJump
  simp only [Bool.and_eq_true, beq_iff_eq]
  refine and_congr_right fun _ => ?_
  split
  · rename_i nnn h; simp [h]
  · rename_i h; exact ⟨fun e => (Bool.false_ne_true e).elim, fun ⟨nnn, e, _⟩ => (h nnn e).elim⟩

/-- With no event listed a step is a cycle. -/
theorem step_idle {s : State} (h : s.schedule = []) : step s = cycle s := by
  simp [step, advance, advanceWith, h]

/-- A listed event is what happens next. -/
theorem step_event {s : State} {e : Event} {rest : List Event} (h : s.schedule = e :: rest) :
    step s = act e { s with schedule := rest } := by
  simp [step, advance, advanceWith, act, h]

/-- Everything a step that answers can have been: an unlisted cycle, or the first listed event. -/
theorem step_cases {s t : State} (h : step s = .next t) :
    (s.schedule = [] ∧ cycle s = .next t) ∨
    (∃ rest, s.schedule = .cycle :: rest ∧ cycle { s with schedule := rest } = .next t) ∨
    (∃ rest, s.schedule = .tickGeneral :: rest ∧ t = tickGeneral { s with schedule := rest }) ∨
    (∃ rest, s.schedule = .tickSound :: rest ∧ t = tickSound { s with schedule := rest }) ∨
    (∃ k rest, s.schedule = .keyEvent k :: rest ∧ t = keyEvent k { s with schedule := rest }) ∨
    (∃ rest, s.schedule = .reset :: rest ∧ t = resetCore { s with schedule := rest }) := by
  cases hs : s.schedule with
  | nil => exact .inl ⟨rfl, step_idle hs ▸ h⟩
  | cons e rest =>
    rw [step_event hs] at h
    cases e with
    | cycle => exact .inr (.inl ⟨rest, rfl, h⟩)
    | tickGeneral => cases h; exact .inr (.inr (.inl ⟨rest, rfl, rfl⟩))
    | tickSound => cases h; exact .inr (.inr (.inr (.inl ⟨rest, rfl, rfl⟩)))
    | keyEvent k => cases h; exact .inr (.inr (.inr (.inr (.inl ⟨k, rest, rfl, rfl⟩))))
    | reset => cases h; exact .inr (.inr (.inr (.inr (.inr ⟨rest, rfl, rfl⟩))))

/-- A key press completes the suspended `FX0A` (R185). -/
theorem keyEvent_suspended {s : State} {x : RegIdx} (k : KeyCode) (h : s.wait = some x) :
    keyEvent k s = { s.putReg x (k.zeroExtend 8) with wait := none, pc := s.pc + 2#16 } := by
  rw [← ofNat_nextSequential]; simp [keyEvent, h, State.writePc]

/-- While the core runs it is ignored (R185, D13). -/
theorem keyEvent_running {s : State} (k : KeyCode) (h : s.wait = none) : keyEvent k s = s := by
  simp [keyEvent, h]

end Sys2Proof.Machine
end

