-- ==== Sys2Proof/Laws/Decode.lean ====
section
/-! SUPPORT. The fields of a word that the encodings of `30_encoding.md` R72 pack, and the masks of R75 and R83 on it. -/

namespace Sys2Proof

/-! ### Bit by bit -/

theorem getLsbD_packWord (c : BitVec 4) (r : Addr) (k : Nat) :
    (packWord c r).getLsbD k = if k < 12 then r.getLsbD k else c.getLsbD (k - 12) := BitVec.getLsbD_append

theorem getLsbD_packPayload (x : RegIdx) (nn : Byte) (k : Nat) :
    (packPayload x nn).getLsbD k = if k < 8 then nn.getLsbD k else x.getLsbD (k - 8) := BitVec.getLsbD_append

theorem getLsbD_packByte (y n : Nibble) (k : Nat) :
    (packByte y n).getLsbD k = if k < 4 then n.getLsbD k else y.getLsbD (k - 4) := BitVec.getLsbD_append

theorem getLsbD_wordOfBytes (hi lo : Byte) (k : Nat) :
    (wordOfBytes hi lo).getLsbD k = if k < 8 then lo.getLsbD k else hi.getLsbD (k - 8) := BitVec.getLsbD_append

/-! ### Category and payload -/

@[simp] theorem category_packWord (c : BitVec 4) (r : Addr) : category (packWord c r) = c := by
  apply BitVec.eq_of_getLsbD_eq; intro k hk
  rw [category, BitVec.getLsbD_extractLsb', getLsbD_packWord]
  simp [hk]

@[simp] theorem payload_packWord (c : BitVec 4) (r : Addr) : payload (packWord c r) = r := by
  apply BitVec.eq_of_getLsbD_eq; intro k hk
  rw [payload, BitVec.getLsbD_extractLsb', getLsbD_packWord]
  simp [hk]

/-- A word is its category and its payload (R71). -/
theorem word_eq_packWord (w : Word) : packWord (category w) (payload w) = w := by
  apply BitVec.eq_of_getLsbD_eq; intro k hk
  rw [getLsbD_packWord]
  by_cases h : k < 12
  · simp [payload, h]
  · simp [category, h, show k - 12 < 4 by omega, show 12 + (k - 12) = k by omega]

/-! ### Fields of the payload -/

@[simp] theorem fieldX_packPayload (x : RegIdx) (nn : Byte) : fieldX (packPayload x nn) = x := by
  apply BitVec.eq_of_getLsbD_eq; intro k hk
  rw [fieldX, BitVec.getLsbD_extractLsb', getLsbD_packPayload]
  simp [hk]

@[simp] theorem fieldNN_packPayload (x : RegIdx) (nn : Byte) : fieldNN (packPayload x nn) = nn := by
  apply BitVec.eq_of_getLsbD_eq; intro k hk
  rw [fieldNN, BitVec.getLsbD_extractLsb', getLsbD_packPayload]
  simp [hk]

@[simp] theorem fieldY_packPayload (x y : RegIdx) (n : Nibble) : fieldY (packPayload x (packByte y n)) = y := by
  apply BitVec.eq_of_getLsbD_eq; intro k hk
  rw [fieldY, BitVec.getLsbD_extractLsb', getLsbD_packPayload, getLsbD_packByte]
  simp [hk, show 4 + k < 8 by omega]

@[simp] theorem fieldN_packPayload (x y : RegIdx) (n : Nibble) : fieldN (packPayload x (packByte y n)) = n := by
  apply BitVec.eq_of_getLsbD_eq; intro k hk
  rw [fieldN, BitVec.getLsbD_extractLsb', getLsbD_packPayload, getLsbD_packByte]
  simp [hk, show k < 8 by omega]

/-- A payload is a register and a byte (formats I and S). -/
theorem payload_eq_packPayload (r : Addr) : packPayload (fieldX r) (fieldNN r) = r := by
  apply BitVec.eq_of_getLsbD_eq; intro k hk
  rw [getLsbD_packPayload]
  by_cases h : k < 8
  · simp [fieldNN, h]
  · simp [fieldX, h, show k - 8 < 4 by omega, show 8 + (k - 8) = k by omega]

/-- Its byte is two nibbles (formats R and D). -/
theorem fieldNN_eq_packByte (r : Addr) : packByte (fieldY r) (fieldN r) = fieldNN r := by
  apply BitVec.eq_of_getLsbD_eq; intro k hk
  rw [getLsbD_packByte]
  by_cases h : k < 4
  · simp [fieldN, fieldNN, h, show k < 8 by omega]
  · simp [fieldY, fieldNN, h, hk, show k - 4 < 4 by omega, show 4 + (k - 4) = k by omega]

/-! ### Masks (R75, R83) -/

/-- A mask acts on the category and on the payload, each on its own. -/
theorem packWord_and (c d : BitVec 4) (r m : Addr) : packWord c r &&& packWord d m = packWord (c &&& d) (r &&& m) := by
  apply BitVec.eq_of_getLsbD_eq; intro k hk
  rw [BitVec.getLsbD_and, getLsbD_packWord, getLsbD_packWord, getLsbD_packWord]
  split <;> rw [BitVec.getLsbD_and]

/-- A mask acts on the register and on the byte, each on its own. -/
theorem packPayload_and (x z : RegIdx) (nn m : Byte) :
    packPayload x nn &&& packPayload z m = packPayload (x &&& z) (nn &&& m) := by
  apply BitVec.eq_of_getLsbD_eq; intro k hk
  rw [BitVec.getLsbD_and, getLsbD_packPayload, getLsbD_packPayload, getLsbD_packPayload]
  split <;> rw [BitVec.getLsbD_and]

/-- A mask acts on each nibble on its own. -/
theorem packByte_and (y n z m : Nibble) : packByte y n &&& packByte z m = packByte (y &&& z) (n &&& m) := by
  apply BitVec.eq_of_getLsbD_eq; intro k hk
  rw [BitVec.getLsbD_and, getLsbD_packByte, getLsbD_packByte, getLsbD_packByte]
  split <;> rw [BitVec.getLsbD_and]

/-- The key of categories 0, E and F: the payload's low byte. -/
theorem packPayload_and_low_byte (x : RegIdx) (nn : Byte) : packPayload x nn &&& 0x0FF#12 = packPayload 0#4 nn := by
  have hx : x &&& 0#4 = 0#4 := by simp
  have hn : nn &&& 0xFF#8 = nn := by revert nn; decide
  rw [show (0x0FF#12 : Addr) = packPayload 0#4 0xFF#8 from by decide, packPayload_and, hx, hn]

/-- The key of category 8: the payload's low nibble. -/
theorem packPayload_and_low_nibble (x y : RegIdx) (n : Nibble) :
    packPayload x (packByte y n) &&& 0x00F#12 = packPayload 0#4 (packByte 0#4 n) := by
  have hx : x &&& 0#4 = 0#4 := by simp
  have hy : y &&& 0#4 = 0#4 := by simp
  have hn : n &&& 0xF#4 = n := by revert n; decide
  rw [show (0x00F#12 : Addr) = packPayload 0#4 (packByte 0#4 0xF#4) from by decide, packPayload_and, packByte_and, hx, hy, hn]

/-! ### The decoder on a packed word -/

/-- Level 1 picks the category's entry, level 2 resolves the payload (R76). -/
theorem decodeTagUnder_packWord (cfg : Config) (c : BitVec 4) (r : Addr) :
    decodeTagUnder cfg (packWord c r) = resolve ((level1 cfg)[c.toNat]'c.isLt) r := by
  simp only [decodeTagUnder, payload_packWord, category_packWord]

theorem decodeWordUnder_packWord (cfg : Config) (c : BitVec 4) (r : Addr) :
    decodeWordUnder cfg (packWord c r) = (resolve ((level1 cfg)[c.toNat]'c.isLt) r).map fun t => t.instr r := by
  rw [decodeWordUnder, decodeTagUnder_packWord, payload_packWord]

/-- What the decoder answers is its tag's handler applied to the payload (R76). -/
theorem decodeWord_eq_some {w : Word} {i : Instr} :
    decodeWord w = some i ↔ ∃ t, decodeTagUnder Config.standard w = some t ∧ t.instr (payload w) = i := by
  simp [decodeWord, decodeWordUnder]

/-! ### Bytes of a word -/

/-- Laid out and read back big-endian, a word is itself (R54, R70). -/
theorem wordOfBytes_bytesOfWord (w : Word) : wordOfBytes (w.extractLsb' 8 8) (w.extractLsb' 0 8) = w := by
  apply BitVec.eq_of_getLsbD_eq; intro k hk
  rw [getLsbD_wordOfBytes]
  by_cases h : k < 8
  · simp [h]
  · simp [h, show k - 8 < 8 by omega, show 8 + (k - 8) = k by omega]

/-- The two bytes of a word at the head of a stream decode as the word. -/
theorem decodeBytes_bytesOfWord (w : Word) (rest : List Byte) :
    decodeBytes (bytesOfWord w ++ rest) =
      match decodeWord w with
      | some i => .ok (i, rest)
      | none => .error (.unknownOpcode w) := by
  cases h : decodeWord w <;> simp [bytesOfWord, decodeBytes, wordOfBytes_bytesOfWord, h]

end Sys2Proof
end

