-- ==== Sys2Proof/Laws/PerInstr.lean ====
section
/-! SUPPORT. A statement per instruction, as syntax: its encoding lands on its own row of the opcode map (R83), with every
ignored bit zero (R78). -/

namespace Sys2Proof.Laws.EncodesItsRow

/-- The instruction's word selects its row, and no ignored bit of it is set. -/
def Statement (i : Instr) : Prop := encode i &&& i.tag.rowMask = i.tag.rowMatch ∧ canonicalWord (encode i) = true

/-! ### The formats -/

/-- A word of a category none of whose bits is ever ignored is canonical. -/
theorem canonical_of_category (c : BitVec 4) (r : Addr) (h : c ≠ 0#4 ∧ c ≠ 5#4 ∧ c ≠ 8#4 ∧ c ≠ 9#4) :
    canonicalWord (packWord c r) = true := by
  have hc : (packWord c r).extractLsb' 12 4 = c := category_packWord c r
  have ne : ∀ d : BitVec 4, c ≠ d → c.toNat ≠ d.toNat := fun d hd e => hd (BitVec.eq_of_toNat_eq e)
  have h0 := ne _ h.1
  have h5 := ne _ h.2.1
  have h8 := ne _ h.2.2.1
  have h9 := ne _ h.2.2.2
  simp only [canonicalWord, canonicalise, hc, beq_iff_eq]
  split <;> simp_all

/-- A row that fixes the category alone. -/
theorem category_row (c : BitVec 4) (r : Addr) (h : c ≠ 0#4 ∧ c ≠ 5#4 ∧ c ≠ 8#4 ∧ c ≠ 9#4) :
    packWord c r &&& 0xF000#16 = packWord c 0#12 ∧ canonicalWord (packWord c r) = true := by
  have hc : c &&& 0xF#4 = c := by revert c; decide
  refine ⟨?_, canonical_of_category c r h⟩
  rw [show (0xF000#16 : Word) = packWord 0xF#4 0#12 from by decide, packWord_and, hc, BitVec.and_zero]

/-! ### One lemma per constructor -/


theorem cls : Statement .cls := by unfold Statement; decide

theorem ret : Statement .ret := by unfold Statement; decide

theorem jp (nnn : Addr) : Statement (.jp nnn) := category_row _ _ (by decide)

theorem call (nnn : Addr) : Statement (.call nnn) := category_row _ _ (by decide)

theorem seImm (x : RegIdx) (nn : Byte) : Statement (.seImm x nn) := category_row _ _ (by decide)

theorem sneImm (x : RegIdx) (nn : Byte) : Statement (.sneImm x nn) := category_row _ _ (by decide)

theorem seReg (x y : RegIdx) : Statement (.seReg x y) := by revert x y; unfold Statement; decide

theorem ldImm (x : RegIdx) (nn : Byte) : Statement (.ldImm x nn) := category_row _ _ (by decide)

theorem addImm (x : RegIdx) (nn : Byte) : Statement (.addImm x nn) := category_row _ _ (by decide)

theorem ldReg (x y : RegIdx) : Statement (.ldReg x y) := by revert x y; unfold Statement; decide

theorem or (x y : RegIdx) : Statement (.or x y) := by revert x y; unfold Statement; decide

theorem and (x y : RegIdx) : Statement (.and x y) := by revert x y; unfold Statement; decide

theorem xor (x y : RegIdx) : Statement (.xor x y) := by revert x y; unfold Statement; decide

theorem addReg (x y : RegIdx) : Statement (.addReg x y) := by revert x y; unfold Statement; decide

theorem sub (x y : RegIdx) : Statement (.sub x y) := by revert x y; unfold Statement; decide

theorem shr (x : RegIdx) : Statement (.shr x) := by revert x; unfold Statement; decide

theorem subn (x y : RegIdx) : Statement (.subn x y) := by revert x y; unfold Statement; decide

theorem shl (x : RegIdx) : Statement (.shl x) := by revert x; unfold Statement; decide

theorem sneReg (x y : RegIdx) : Statement (.sneReg x y) := by revert x y; unfold Statement; decide

theorem ldI (nnn : Addr) : Statement (.ldI nnn) := category_row _ _ (by decide)

theorem jpV0 (nnn : Addr) : Statement (.jpV0 nnn) := category_row _ _ (by decide)

theorem rnd (x : RegIdx) (nn : Byte) : Statement (.rnd x nn) := category_row _ _ (by decide)

theorem drw (x y : RegIdx) (n : Nibble) : Statement (.drw x y n) := category_row _ _ (by decide)

theorem skp (x : RegIdx) : Statement (.skp x) := by revert x; unfold Statement; decide

theorem sknp (x : RegIdx) : Statement (.sknp x) := by revert x; unfold Statement; decide

theorem ldVxDt (x : RegIdx) : Statement (.ldVxDt x) := by revert x; unfold Statement; decide

theorem ldVxK (x : RegIdx) : Statement (.ldVxK x) := by revert x; unfold Statement; decide

theorem ldDtVx (x : RegIdx) : Statement (.ldDtVx x) := by revert x; unfold Statement; decide

theorem ldStVx (x : RegIdx) : Statement (.ldStVx x) := by revert x; unfold Statement; decide

theorem addI (x : RegIdx) : Statement (.addI x) := by revert x; unfold Statement; decide

theorem ldFont (x : RegIdx) : Statement (.ldFont x) := by revert x; unfold Statement; decide

theorem bcd (x : RegIdx) : Statement (.bcd x) := by revert x; unfold Statement; decide

theorem store (x : RegIdx) : Statement (.store x) := by revert x; unfold Statement; decide

theorem load (x : RegIdx) : Statement (.load x) := by revert x; unfold Statement; decide

end Sys2Proof.Laws.EncodesItsRow
end

