-- ==== Sys2Proof/Tests/Slice0.lean ====
section
/-! SUPPORT. Checks of the model on values the spec gives. `S`, `2.1` to `2.7` and `P` name the rows of `95_test_vectors.md` an
expected value is taken from; a decoded word is written out bit by bit from its pattern in `30_encoding.md` R83. The last part
shows, for each statement with hypotheses, values that meet all of them together. -/

open Sys2Proof Sys2Proof.Machine

namespace Sys2Proof.Tests

/-! ## Helpers -/

/-- The reset state with the listed registers set. -/
def regs (l : List (RegIdx × Byte)) : State := l.foldl (fun s p => s.putReg p.1 p.2) State.reset

/-- The state with bytes at an address. -/
def withBytes (s : State) (a : Nat) (bs : List Byte) : State := { s with mem := s.mem.writeBytes a bs }

/-- What is seen of the state after one step that runs the word `w` at `pc`. -/
def after {α : Type} (s : State) (w : Word) (see : State → α) : Option α := (nextState (step (s.placeWord w))).map see

/-- The failure of one step that runs the word `w` at `pc`. -/
def failsWith (s : State) (w : Word) : Option Fault := failure (step (s.placeWord w))

/-- Columns of a picture's row that are lit. -/
def litColumns (s : State) (y : Nat) : List Nat := (List.range 64).filter fun x => Framebuffer.pixel s.fb x y

/-- A picture with the listed pixels lit. -/
def picture (l : List (Nat × Nat)) : Framebuffer := l.foldl (fun fb p => fb.setPixel p.1 p.2 true) clearedFramebuffer

/-! ## WellFormed: an ill-formed term for each check -/

theorem test_wf_standard_configuration : Config.standard.wellFormed = true := by decide
theorem test_wf_refuses_sub_dispatch_mask : Config.wellFormed { cat0Mask := 0x123#12 } = false := by decide
theorem test_wf_wide_address_register : Config.wellFormed { iWidth := 16 } = true := by decide
theorem test_wf_refuses_address_register_width : Config.wellFormed { iWidth := 13 } = false := by decide
theorem test_wf_refuses_return_offset : Config.wellFormed { retOffset := 1 } = false := by decide
theorem test_wf_refuses_font_table : Config.wellFormed { hasFont := true } = false := by decide
theorem test_wf_largest_image : imageWellFormed (List.replicate 3584 0xFF#8) = true :=
  decide_eq_true (by rw [List.length_replicate]; decide)
theorem test_wf_refuses_image_too_long : imageWellFormed (List.replicate 3585 0xFF#8) = false :=
  decide_eq_false (by rw [List.length_replicate]; decide)
theorem test_wf_refuses_stray_bits_of_category_0 : canonicalWord 0x01E0#16 = false := by decide
theorem test_wf_refuses_stray_bits_of_category_5 : canonicalWord 0x5AB7#16 = false := by decide
theorem test_wf_refuses_stray_bits_of_category_9 : canonicalWord 0x912F#16 = false := by decide
theorem test_wf_refuses_stray_bits_of_a_right_shift : canonicalWord 0x8376#16 = false := by decide
theorem test_wf_refuses_stray_bits_of_a_left_shift : canonicalWord 0x837E#16 = false := by decide

/-! ## Decode: every constructor, its word written out bit by bit from R83 -/

theorem test_decode_cls : decodeWord 0b0000000011100000#16 = some .cls := by decide
theorem test_decode_ret : decodeWord 0b0000000011101110#16 = some .ret := by decide
theorem test_decode_jp : decodeWord 0b0001001000110100#16 = some (.jp 0x234#12) := by decide
theorem test_decode_call : decodeWord 0b0010101010111100#16 = some (.call 0xABC#12) := by decide
theorem test_decode_seImm : decodeWord 0b0011101000010010#16 = some (.seImm 10#4 0x12#8) := by decide
theorem test_decode_sneImm : decodeWord 0b0100101100000000#16 = some (.sneImm 11#4 0#8) := by decide
theorem test_decode_seReg : decodeWord 0b0101101010110000#16 = some (.seReg 10#4 11#4) := by decide
theorem test_decode_ldImm : decodeWord 0b0110110011111111#16 = some (.ldImm 12#4 0xFF#8) := by decide
theorem test_decode_addImm : decodeWord 0b0111000000000001#16 = some (.addImm 0#4 1#8) := by decide
theorem test_decode_ldReg : decodeWord 0b1000101010110000#16 = some (.ldReg 10#4 11#4) := by decide
theorem test_decode_or : decodeWord 0b1000101010110001#16 = some (.or 10#4 11#4) := by decide
theorem test_decode_and : decodeWord 0b1000101010110010#16 = some (.and 10#4 11#4) := by decide
theorem test_decode_xor : decodeWord 0b1000101010110011#16 = some (.xor 10#4 11#4) := by decide
theorem test_decode_addReg : decodeWord 0b1000101010110100#16 = some (.addReg 10#4 11#4) := by decide
theorem test_decode_sub : decodeWord 0b1000101010110101#16 = some (.sub 10#4 11#4) := by decide
theorem test_decode_shr : decodeWord 0b1000101010110110#16 = some (.shr 10#4) := by decide
theorem test_decode_subn : decodeWord 0b1000101010110111#16 = some (.subn 10#4 11#4) := by decide
theorem test_decode_shl : decodeWord 0b1000101010111110#16 = some (.shl 10#4) := by decide
theorem test_decode_sneReg : decodeWord 0b1001000100100000#16 = some (.sneReg 1#4 2#4) := by decide
theorem test_decode_ldI : decodeWord 0b1010000100100011#16 = some (.ldI 0x123#12) := by decide
theorem test_decode_jpV0 : decodeWord 0b1011111111111111#16 = some (.jpV0 0xFFF#12) := by decide
theorem test_decode_rnd : decodeWord 0b1100001100001111#16 = some (.rnd 3#4 0x0F#8) := by decide
theorem test_decode_drw : decodeWord 0b1101000100100101#16 = some (.drw 1#4 2#4 5#4) := by decide
theorem test_decode_skp : decodeWord 0b1110000110011110#16 = some (.skp 1#4) := by decide
theorem test_decode_sknp : decodeWord 0b1110000110100001#16 = some (.sknp 1#4) := by decide
theorem test_decode_ldVxDt : decodeWord 0b1111000100000111#16 = some (.ldVxDt 1#4) := by decide
theorem test_decode_ldVxK : decodeWord 0b1111000100001010#16 = some (.ldVxK 1#4) := by decide
theorem test_decode_ldDtVx : decodeWord 0b1111000100010101#16 = some (.ldDtVx 1#4) := by decide
theorem test_decode_ldStVx : decodeWord 0b1111000100011000#16 = some (.ldStVx 1#4) := by decide
theorem test_decode_addI : decodeWord 0b1111000100011110#16 = some (.addI 1#4) := by decide
theorem test_decode_ldFont : decodeWord 0b1111000100101001#16 = some (.ldFont 1#4) := by decide
theorem test_decode_bcd : decodeWord 0b1111000100110011#16 = some (.bcd 1#4) := by decide
theorem test_decode_store : decodeWord 0b1111000101010101#16 = some (.store 1#4) := by decide
theorem test_decode_load : decodeWord 0b1111000101100101#16 = some (.load 1#4) := by decide

/-- 2.1: aliases run as the canonical word (R78). -/
theorem test_decode_aliases :
    [0x01E0#16, 0x0FEE#16, 0x5AB7#16, 0x912F#16].map decodeWord =
      [some .cls, some .ret, some (.seReg 10#4 11#4), some (.sneReg 1#4 2#4)] := by decide

/-- 2.1: `CAT0_MASK = 0xFFF` has no aliases of category 0. -/
theorem test_decode_strict_mask :
    [0x01E0#16, 0x0FEE#16].map (decodeWordUnder { cat0Mask := 0xFFF#12 }) = [none, none] := by decide

/-- 2.1: the unknown words listed there. -/
theorem test_decode_unknown :
    [0x0000#16, 0x00E1#16, 0x00FF#16, 0x00C1#16, 0x00FD#16, 0x0123#16, 0x8AB8#16, 0x8AB9#16, 0x8ABA#16, 0x8ABB#16, 0x8ABC#16,
      0x8ABD#16, 0x8ABF#16, 0xE100#16, 0xE19F#16, 0xE1A0#16, 0xE29D#16, 0xF100#16, 0xF130#16, 0xF175#16, 0xF185#16, 0xF1FF#16,
      0xF11F#16].all (fun w => decodeWord w == none) = true := by decide

/-- A byte list too short for a word is refused by name. -/
theorem test_decode_short : decodeBytes [0x12#8] = .error .truncated := by decide

/-- The table numbers the one word's bits from the least significant: `0x1204` is `JP 0x204`. -/
theorem test_decode_table_word : decodeTableWord 16 0x1204 = some (.jp 0x204#12) := by decide

/-! ## Fetch and the cycle (2.1, 2.2) -/

theorem test_fetch_even : (withBytes State.reset 0x200 [0x12#8, 0x34#8]).fetch.toOption = some 0x1234#16 := by decide
theorem test_fetch_odd :
    (State.fetch { withBytes State.reset 0x201 [0xD0#8, 0x15#8] with pc := 0x201#16 }).toOption = some 0xD015#16 := by decide
theorem test_fetch_at_the_last_byte : failure (step { State.reset with pc := 0xFFF#16 }) = some (.outOfRange 4096) := by decide
theorem test_fetch_above_memory : failure (step { State.reset with pc := 0x10FE#16 }) = some (.outOfRange 0x10FE) := by decide
theorem test_first_cycle_without_an_image : failure (step State.reset) = some (.unknownOpcode 0#16) := by decide

/-! ## Control transfer (2.2) -/

theorem test_jp : after State.reset 0x1FFF#16 State.pc = some 0xFFF#16 := by decide
theorem test_jp_self : after { State.reset with pc := 0x300#16 } 0x1300#16 State.pc = some 0x300#16 := by decide
theorem test_call :
    after { State.reset with pc := 0x204#16 } 0x2208#16 (fun t => (t.stack, t.pc)) = some ([0x204#12], 0x208#16) := by decide
theorem test_call_on_a_full_stack :
    failsWith { State.reset with stack := List.replicate 16 0#12 } 0x2300#16 = some .stackOverflow := by decide
/-- The second clause is `RET_OFFSET = 2`. -/
theorem test_ret :
    after { State.reset with pc := 0x208#16, stack := [0x300#12, 0x204#12] } 0x00EE#16 (fun t => (t.stack, t.pc)) =
      some ([0x300#12], 0x204#16) ∧
    (nextState (retUnder { retOffset := 2 } { State.reset with stack := [0x204#12] })).map State.pc = some 0x206#16 := by decide
theorem test_ret_on_an_empty_stack : failsWith State.reset 0x00EE#16 = some .stackUnderflow := by decide
theorem test_seImm_taken : after { State.reset with pc := 0x208#16 } 0x3100#16 State.pc = some 0x20C#16 := by decide
theorem test_seImm_not_taken : after { regs [(1, 1)] with pc := 0x208#16 } 0x3100#16 State.pc = some 0x20A#16 := by decide
theorem test_sneImm_taken : after { regs [(1, 1)] with pc := 0x208#16 } 0x4100#16 State.pc = some 0x20C#16 := by decide
theorem test_sneImm_not_taken : after { State.reset with pc := 0x208#16 } 0x4100#16 State.pc = some 0x20A#16 := by decide
theorem test_seReg_taken : after (regs [(0, 7), (1, 7)]) 0x5010#16 State.pc = some 0x204#16 := by decide
theorem test_seReg_not_taken : after (regs [(0, 7), (1, 8)]) 0x5010#16 State.pc = some 0x202#16 := by decide
theorem test_sneReg_taken : after (regs [(0, 7), (1, 8)]) 0x9010#16 State.pc = some 0x204#16 := by decide
theorem test_sneReg_not_taken : after (regs [(3, 9)]) 0x9330#16 State.pc = some 0x202#16 := by decide
theorem test_jpV0 : after (regs [(0, 4)]) 0xB300#16 State.pc = some 0x304#16 := by decide
theorem test_jpV0_beyond_memory : after (regs [(0, 0xFF)]) 0xBFFF#16 State.pc = some 0x10FE#16 := by decide

/-! ## Loads, arithmetic, logic, shifts, random (2.3) -/

theorem test_ldImm : after State.reset 0x6A7F#16 (fun t => (t.reg 10, t.pc)) = some (0x7F#8, 0x202#16) := by decide
theorem test_ldImm_flag_register : after State.reset 0x6F05#16 (State.reg · 15) = some 5#8 := by decide
theorem test_addImm_wraps :
    after (regs [(1, 0xFF), (15, 7)]) 0x7102#16 (fun t => (t.reg 1, t.reg 15)) = some (1#8, 7#8) := by decide
theorem test_ldReg : after (regs [(2, 0x3C)]) 0x8120#16 (State.reg · 1) = some 0x3C#8 := by decide
theorem test_or :
    after (regs [(0, 0xF0), (1, 0x0F), (15, 0x55)]) 0x8011#16 (fun t => (t.reg 0, t.reg 15)) = some (0xFF#8, 0x55#8) := by decide
theorem test_and : after (regs [(0, 0xF0), (1, 0x3C)]) 0x8012#16 (State.reg · 0) = some 0x30#8 := by decide
theorem test_xor : after (regs [(0, 0xF0), (1, 0x3C)]) 0x8013#16 (State.reg · 0) = some 0xCC#8 := by decide
theorem test_xor_with_itself : after (regs [(4, 0x99)]) 0x8443#16 (State.reg · 4) = some 0#8 := by decide
/-- The sums 256 and 255. -/
theorem test_addReg :
    after (regs [(0, 0xFF), (1, 1)]) 0x8014#16 (fun t => (t.reg 0, t.reg 15)) = some (0#8, 1#8) ∧
    after (regs [(0, 0xFF), (1, 0), (15, 9)]) 0x8014#16 (fun t => (t.reg 0, t.reg 15)) = some (0xFF#8, 0#8) := by decide
theorem test_addReg_into_the_flag_register : after (regs [(15, 0xF0), (1, 0x20)]) 0x8F14#16 (State.reg · 15) = some 1#8 := by decide
theorem test_sub_borrows :
    after (regs [(0, 3), (1, 5)]) 0x8015#16 (fun t => (t.reg 0, t.reg 15)) = some (0xFE#8, 0#8) := by decide
theorem test_sub_equal :
    after (regs [(0, 7), (1, 7)]) 0x8015#16 (fun t => (t.reg 0, t.reg 15)) = some (0#8, 1#8) := by decide
theorem test_subn : after (regs [(0, 5), (1, 3)]) 0x8017#16 (fun t => (t.reg 0, t.reg 15)) = some (2#8, 1#8) := by decide
theorem test_subn_reversed :
    (nextState (subnUnder { subnReversed := true } 0 1 (regs [(0, 5), (1, 3)]))).map (fun t => (t.reg 0, t.reg 15)) =
      some (0xFE#8, 0#8) := by decide
theorem test_shr_ignores_y :
    after (regs [(3, 0xFF), (7, 0x12)]) 0x8376#16 (fun t => (t.reg 3, t.reg 15, t.reg 7)) = some (0x7F#8, 1#8, 0x12#8) := by decide
theorem test_shr_of_the_flag_register : after (regs [(15, 3)]) 0x8F06#16 (State.reg · 15) = some 0#8 := by decide
theorem test_shl : after (regs [(3, 0x81)]) 0x830E#16 (fun t => (t.reg 3, t.reg 15)) = some (2#8, 1#8) := by decide
theorem test_shl_of_the_flag_register : after (regs [(15, 0x81)]) 0x8F0E#16 (State.reg · 15) = some 2#8 := by decide
/-- `RandByte() = 0xB7` gives `V[2] = 0x07` under the mask `0x0F`. -/
theorem test_rnd (h : Config.randomByte 0 = 0xB7#8) : after State.reset 0xC20F#16 (State.reg · 2) = some 7#8 := by
  have e : after State.reset 0xC20F#16 (State.reg · 2) = some (Config.randomByte 0 &&& 0x0F#8) := by rfl
  rw [e, h]; decide
/-- Any random byte under the mask 0 gives 0. -/
theorem test_rnd_mask_zero : after (regs [(2, 9)]) 0xC200#16 (State.reg · 2) = some 0#8 := by
  have e : after (regs [(2, 9)]) 0xC200#16 (State.reg · 2) = some (Config.randomByte 0 &&& 0#8) := by rfl
  rw [e, BitVec.and_zero]

/-! ## Display (2.4) -/

theorem test_cls :
    after { regs [(15, 7)] with fb := picture [(0, 0), (63, 31)] } 0x00E0#16
      (fun t => (decide (t.fb = clearedFramebuffer), t.reg 15, t.displayDirty)) = some (true, 7#8, true) := by decide
/-- S5, first draw; a lit pixel switched off and another switched on; the old `VF` as a coordinate. -/
theorem test_drw :
    after { withBytes State.reset 0x300 [0xAA#8] with i := 0x300#16 } 0xD011#16 (fun t => (litColumns t 0, t.reg 15)) =
      some ([0, 2, 4, 6], 0#8) ∧
    after { withBytes State.reset 0x300 [0xC0#8] with i := 0x300#16, fb := picture [(0, 0)] } 0xD011#16
      (fun t => (litColumns t 0, t.reg 15)) = some ([1], 1#8) ∧
    after { withBytes (regs [(15, 2)]) 0x300 [0xF0#8] with i := 0x300#16 } 0xDF11#16 (fun t => (litColumns t 0, t.reg 15)) =
      some ([2, 3, 4, 5], 0#8) := by decide
/-- No row at the last cell; two rows there. -/
theorem test_drw_at_the_end_of_memory :
    after { regs [(15, 1)] with i := 0xFFF#16 } 0xD010#16 (State.reg · 15) = some 0#8 ∧
    failsWith { State.reset with i := 0xFFF#16 } 0xD012#16 = some (.outOfRange 4096) := by decide
/-- 2.4: columns 64 to 67 are dropped; so is row 32; a start outside the grid draws nothing. -/
theorem test_sprite_clipped :
    litColumns { State.reset with fb := (drawSprite clearedFramebuffer [0xFF#8] 60 0).1 } 0 = [60, 61, 62, 63] ∧
    litColumns { State.reset with fb := (drawSprite clearedFramebuffer [0xFF#8, 0xFF#8] 0 31).1 } 31 = List.range 8 ∧
    drawSprite clearedFramebuffer [0xFF#8] 64 0 = (clearedFramebuffer, false) ∧
    drawSprite clearedFramebuffer [0xFF#8] 0 32 = (clearedFramebuffer, false) := by decide

/-! ## Keys and timers (2.5) -/

theorem test_skp_pressed (h : Config.keyLevel 0 0xA#4 = true) :
    after { regs [(4, 0xA)] with pc := 0x220#16 } 0xE49E#16 State.pc = some 0x224#16 := by
  have e : after { regs [(4, 0xA)] with pc := 0x220#16 } 0xE49E#16 State.pc =
      some (BitVec.ofNat 16 (if Config.keyLevel 0 0xA#4 then 0x224 else 0x222)) := by rfl
  rw [e, h]; decide
theorem test_skp_code_above_fifteen : after { regs [(4, 0x1A)] with pc := 0x220#16 } 0xE49E#16 State.pc = some 0x222#16 := by decide
theorem test_sknp_pressed (h : Config.keyLevel 0 0xA#4 = true) :
    after { regs [(4, 0xA)] with pc := 0x220#16 } 0xE4A1#16 State.pc = some 0x222#16 := by
  have e : after { regs [(4, 0xA)] with pc := 0x220#16 } 0xE4A1#16 State.pc =
      some (BitVec.ofNat 16 (if !Config.keyLevel 0 0xA#4 then 0x224 else 0x222)) := by rfl
  rw [e, h]; decide
theorem test_sknp_code_above_fifteen : after { regs [(4, 0x1A)] with pc := 0x220#16 } 0xE4A1#16 State.pc = some 0x224#16 := by decide
theorem test_ldVxDt : after { State.reset with dt := 0x2A#8 } 0xF307#16 (State.reg · 3) = some 0x2A#8 := by decide
theorem test_ldDtVx : after (regs [(3, 0x3C)]) 0xF315#16 State.dt = some 0x3C#8 := by decide
theorem test_ldStVx : after (regs [(3, 5)]) 0xF318#16 State.st = some 5#8 := by decide
theorem test_ldVxK :
    after { State.reset with pc := 0x230#16 } 0xF50A#16 (fun t => (t.wait, t.pc, t.report)) =
      some (some 5#4, 0x230#16, .suspended) := by decide
/-- 2.5: `key_event(0xB)` while suspended. -/
theorem test_key_event :
    (nextState (step { State.reset with pc := 0x230#16, wait := some 5#4, schedule := [.keyEvent 0xB#4] })).map
      (fun t => (t.reg 5, t.wait, t.pc)) = some (0xB#8, none, 0x232#16) := by decide
theorem test_key_event_while_running :
    nextState (step { State.reset with schedule := [.keyEvent 3#4] }) = some State.reset := by decide
/-- S4. -/
theorem test_tick_general :
    (nextState (step { State.reset with dt := 0xAA#8, schedule := [.tickGeneral] })).map State.dt = some 0xA9#8 := by decide
theorem test_tick_general_at_zero : nextState (step { State.reset with schedule := [.tickGeneral] }) = some State.reset := by decide
theorem test_tick_sound :
    (nextState (step { State.reset with st := 2#8, dt := 9#8, schedule := [.tickSound] })).map (fun t => (t.st, t.dt)) =
      some (1#8, 9#8) := by decide
theorem test_tick_sound_at_zero : nextState (step { State.reset with schedule := [.tickSound] }) = some State.reset := by decide

/-! ## Address register and memory (2.6) -/

theorem test_ldI : after State.reset 0xAFFF#16 State.i = some 0xFFF#16 := by decide
/-- The second clause is `I_WIDTH = 16`: 0xFFF + 1 is kept (U1, D4). -/
theorem test_addI_wraps :
    after { regs [(1, 0xFF)] with i := 0xFF0#16 } 0xF11E#16 (fun t => (t.i, t.reg 15)) = some (0x0EF#16, 0#8) ∧
    (nextState (addIUnder { iWidth := 16 } 1 { regs [(1, 1)] with i := 0xFFF#16 })).map State.i = some 0x1000#16 := by decide
theorem test_ldFont : failsWith { State.reset with pc := 0x240#16 } 0xF029#16 = some (.unimplemented 0xF029#16) := by decide
theorem test_bcd :
    after { regs [(0, 0xFE)] with i := 0x300#16 } 0xF033#16 (fun t => [0x300, 0x301, 0x302].map t.mem.read) =
      some [2#8, 5#8, 4#8] := by decide
theorem test_bcd_outside_memory : failsWith { regs [(0, 9)] with i := 0xFFE#16 } 0xF033#16 = some (.outOfRange 4096) := by decide
theorem test_store :
    after { regs [(0, 2), (1, 5), (2, 4), (3, 9)] with i := 0x305#16 } 0xF255#16
      (fun t => ([0x305, 0x306, 0x307, 0x308].map t.mem.read, t.i)) = some ([2#8, 5#8, 4#8, 0#8], 0x305#16) := by decide
theorem test_store_outside_memory : failsWith { State.reset with i := 0xFFE#16 } 0xF255#16 = some (.outOfRange 4096) := by decide
theorem test_load :
    after { withBytes (regs [(3, 9)]) 0x300 [2#8, 5#8, 4#8] with i := 0x300#16 } 0xF265#16
      (fun t => ([0#4, 1, 2, 3].map t.reg, t.i)) = some ([2#8, 5#8, 4#8, 9#8], 0x300#16) := by decide
theorem test_load_outside_memory : failsWith { State.reset with i := 0xFF1#16 } 0xFF65#16 = some (.outOfRange 4096) := by decide

/-! ## Primitives, reset, launch (2.7, S1, S3, S9) -/

theorem test_register_writes :
    [0xFFFF, 0xAAA, -1, 256].map (fun n : Int => (State.reset.writeReg 3 n).reg 3) = [0xFF#8, 0xAA#8, 0xFF#8, 0#8] := by decide
theorem test_address_writes : [0xFFF, 0x1000].map (fun n : Int => (State.reset.writeI n).i) = [0xFFF#16, 0#16] := by decide
theorem test_memory_write_narrows :
    ((State.reset.memWrite 0x300 [0x1FF]).bind (State.memRead · 0x300 1)).toOption = some [0xFF#8] := by decide
theorem test_memory_edge :
    State.reset.memRead 4096 1 = .error (.outOfRange 4096) ∧ State.reset.memRead 4095 2 = .error (.outOfRange 4096) ∧
      State.reset.memRead 4095 1 = .ok [0#8] := by decide
theorem test_memory_write_is_canonical :
    (Memory.write [(5, 1#8)] 5 0#8) = [] ∧ (Memory.write [(5, 1#8), (9, 2#8)] 7 3#8) = [(5, 1#8), (7, 3#8), (9, 2#8)] := by decide
theorem test_reset_event :
    nextState (step { regs [(1, 2)] with pc := 0x300#16, wait := some 5#4, dt := 1#8, schedule := [.reset] }) =
      some State.reset := by decide
theorem test_launch : (nextState (launch [0x12#8, 0#8])).map (fun t => (t.mem, t.pc)) = some ([(0x200, 0x12#8)], 0x200#16) := by
  decide
/-- A launched program runs from its first word: P6, `F5 0A`. -/
theorem test_launched_program_runs :
    ((nextState (launch [0xF5#8, 0x0A#8])).bind fun s => nextState (step s)).map (fun t => (t.wait, t.pc)) =
      some (some 5#4, 0x200#16) := by decide
/-- P1, P5 and P7: `12 0C` at `0x20C` is the normal end; `12 04` at `0x200` is none; an unknown word ends the run gone wrong. -/
theorem test_end_of_run :
    State.runEnd { withBytes State.reset 0x20C [0x12#8, 0x0C#8] with pc := 0x20C#16 } = some .selfJump ∧
      State.runEnd (withBytes State.reset 0x200 [0x12#8, 0x04#8]) = none ∧
      State.runEnd (withBytes State.reset 0x200 [0x80#8, 0x18#8]) = some (.failed (.unknownOpcode 0x8018#16)) := by decide
/-- A suspended core has not come to an end (R261), also where `pc` holds a jump to itself. -/
theorem test_suspension_is_no_end :
    State.runEnd { withBytes State.reset 0x20C [0x12#8, 0x0C#8] with pc := 0x20C#16, wait := some 5#4 } = none := by decide
/-- P7: `60 01`, then zeros: the second move fails at `0x202`. -/
theorem test_run_off_the_end_of_the_image :
    ((withBytes State.reset 0x200 [0x60#8, 0x01#8]).endWithin 1).map (fun p => (p.1, p.2.pc)) =
      some (.failed (.unknownOpcode 0#16), 0x202#16) := by decide
/-- The failure labels of R220. -/
theorem test_fault_labels :
    [Fault.unknownOpcode 7#16, .outOfRange 4096, .stackUnderflow, .unimplemented 0xF029#16, .stackOverflow].map
      (fun f => (f.code, f.info)) =
      [(1, some 7), (2, some 4096), (3, none), (4, some 0xF029), (5, none)] := by decide
theorem test_font_table_is_refused : ldFontUnder { hasFont := true } 0 State.reset = .refused .fontTableUnspecified := by rfl

/-! ## Witnesses: for each statement with hypotheses, values that meet them together, and the boundary of each clause -/

/-- A running state with two bytes at `pc`. -/
def running (hi lo : Byte) : State := withBytes State.reset 0x200 [hi, lo]

theorem test_witness_ResetBeginsAt0x200WithZeroMemory : (4095 ≤ 4095) ∧ 4095 < 4096 := by decide

theorem test_witness_ResetEventGivesTheResetState :
    State.schedule { regs [(1, 2)] with schedule := [.reset, .cycle] } = .reset :: [.cycle] := rfl

/-- The longest image that fits, its last byte and the cells around it, and the shortest that does not. -/
theorem test_witness_LaunchPlacesTheImageAt0x200 :
    (List.replicate 3584 1#8).length ≤ 3584 ∧ 3583 < (List.replicate 3584 1#8).length ∧ (511 < 0x200 ∨ 0x200 + 3584 ≤ 511) ∧
      0x200 + (List.replicate 3584 1#8).length ≤ 4096 ∧ ¬ (List.replicate 3585 1#8).length ≤ 3584 := by
  rw [List.length_replicate, List.length_replicate]; decide

theorem test_witness_RegisterWriteStoresModulo256 : (14#4 : RegIdx) ≠ 15#4 := by decide

/-- The last two cells, and the cell below them. -/
theorem test_witness_RangeWriteReadsBackModulo256 :
    4094 + ([256, -1] : List Int).length ≤ 4096 ∧ 1 < ([256, -1] : List Int).length ∧ (4093 < 4094 ∨ 4094 + 2 ≤ 4093) := by decide

/-- Inside: the last cell, and no cell at all beyond memory; outside: one cell past the end, from inside and from outside. -/
theorem test_witness_RangeAccessRaisesExactlyOutsideMemory :
    ([7] : List Int).length = 1 ∧ (1 = 0 ∨ 4095 + 1 ≤ 4096) ∧ ([] : List Int).length = 0 ∧ (0 = 0 ∨ 5000 + 0 ≤ 4096) ∧
      ([7, 8] : List Int).length = 2 ∧ ¬ (2 = 0 ∨ 4095 + 2 ≤ 4096) ∧ ¬ (1 = 0 ∨ 4096 + 1 ≤ 4096) := by decide

theorem test_witness_CallStackIsLastInFirstOut :
    State.reset.stack.length + (List.replicate 16 0x204#12).length ≤ 16 ∧ State.reset.stack = [] ∧
      (State.stack { State.reset with stack := List.replicate 16 0x204#12 }).length = 16 := by decide

theorem test_witness_CanonicalMemoriesThatReadAlikeAreEqual :
    Memory.wf [(0, 1#8), (4095, 2#8)] ∧ (∀ a, a ≤ 4095 → Memory.read [(0, 1#8), (4095, 2#8)] a = Memory.read [(0, 1#8), (4095, 2#8)] a) :=
  ⟨by decide, fun _ _ => rfl⟩

theorem test_witness_EncodingADecodedWordClearsItsIgnoredBits : decodeWord 0x8376#16 = some (.shr 3#4) := by decide

/-- The highest address a word can be fetched from. -/
theorem test_witness_FetchIsBigEndian : (State.pc { State.reset with pc := 0xFFE#16 }).toNat ≤ 4094 := by decide

theorem test_witness_AStepRunsTheDecodedInstruction :
    (running 0x6A#8 0x7F#8).wait = none ∧ (running 0x6A#8 0x7F#8).pc.toNat ≤ 4094 ∧
      decodeWord (wordOfBytes ((running 0x6A#8 0x7F#8).mem.read (running 0x6A#8 0x7F#8).pc.toNat)
        ((running 0x6A#8 0x7F#8).mem.read ((running 0x6A#8 0x7F#8).pc.toNat + 1))) = some (.ldImm 10#4 0x7F#8) ∧
      (running 0x6A#8 0x7F#8).schedule = [] ∧
      State.schedule { running 0x6A#8 0x7F#8 with schedule := [.cycle] } = .cycle :: [] := by decide

/-- The three ways to fail: the last byte of memory, an address above it, and an unknown word; with no event listed and with a
cycle listed first. -/
theorem test_witness_CycleRaisesFetchThenDecodeFailures :
    State.reset.wait = none ∧ 4094 < (State.pc { State.reset with pc := 0xFFF#16 }).toNat ∧
      4094 < (State.pc { State.reset with pc := 0x1002#16 }).toNat ∧ ¬ 4094 < (running 0x80#8 0x18#8).pc.toNat ∧
      decodeWord (wordOfBytes ((running 0x80#8 0x18#8).mem.read 0x200) ((running 0x80#8 0x18#8).mem.read 0x201)) = none ∧
      State.reset.schedule = [] ∧ State.schedule { State.reset with schedule := [.cycle] } = .cycle :: [] := by decide

/-- A failing cycle, a jump to its own address, and an event between. -/
theorem test_witness_EitherEndOfARunLastsUntilReset :
    failure (cycle (running 0x00#8 0xEE#8)) = some .stackUnderflow ∧ cycle State.reset = .fault (.unknownOpcode 0#16) ∧
      (running 0x12#8 0x00#8).atSelfJump = true ∧ Event.keyEvent 3#4 ≠ .cycle ∧ Event.keyEvent 3#4 ≠ .reset ∧
      Event.tickGeneral ≠ .cycle ∧ Event.tickGeneral ≠ .reset :=
  ⟨by decide, rfl, by decide, by decide, by decide, by decide, by decide⟩

theorem test_witness_SkipsOnTwoRegistersCompareThem : (regs [(0, 7)]).reg 0 ≠ (regs [(0, 7)]).reg 1 := by decide

theorem test_witness_CallPushesItsOwnAddressAndJumps :
    (State.stack { State.reset with stack := List.replicate 16 0#12 }).length = 16 ∧
      ¬ (State.stack { State.reset with stack := List.replicate 15 0#12 }).length = 16 := by decide

theorem test_witness_ReturnLandsOnThePoppedAddress :
    State.stack { State.reset with stack := [0x300#12, 0x204#12] } = [0x300#12] ++ [0x204#12] ∧ State.reset.stack = [] := by decide

/-- Program P5. -/
theorem test_witness_JumpCallReturnRestoresTheCounter :
    let s := withBytes State.reset 0x200 [0x12#8, 0x04#8, 0x12#8, 0x02#8, 0x22#8, 0x08#8, 0x12#8, 0x06#8, 0x00#8, 0xEE#8]
    s.wait = none ∧ s.schedule = [] ∧ s.stack.length < 16 ∧ s.pc.toNat ≤ 4094 ∧ (0x204#12).toNat ≤ 4094 ∧
      (0x208#12).toNat ≤ 4094 ∧ s.fetchedInstr = some (.jp 0x204#12) ∧
      decodeWord (wordOfBytes (s.mem.read 0x204) (s.mem.read 0x205)) = some (.call 0x208#12) ∧
      decodeWord (wordOfBytes (s.mem.read 0x208) (s.mem.read 0x209)) = some .ret := by decide

/-- A destination that is not `VF`, a third register, and `VF` itself as the destination: the clauses on registers in the
statements about loads, arithmetic, logic, shifts, random, keys and timers. -/
theorem test_witness_registers_of_the_result_statements :
    (3#4 : RegIdx) ≠ flagReg ∧ (4#4 : RegIdx) ≠ 3#4 ∧ (4#4 : RegIdx) ≠ flagReg ∧ (15#4 : RegIdx) = flagReg := by decide

/-- Both sides of each flag. -/
theorem test_witness_flags_of_the_result_statements :
    255 < ((regs [(0, 0xFF), (1, 1)]).reg 0).toNat + ((regs [(0, 0xFF), (1, 1)]).reg 1).toNat ∧
      ¬ 255 < ((regs [(0, 0xFF)]).reg 0).toNat + ((regs [(0, 0xFF)]).reg 1).toNat ∧
      ((regs [(1, 1)]).reg 0).toNat < ((regs [(1, 1)]).reg 1).toNat ∧
      ¬ ((regs [(1, 1)]).reg 1).toNat < ((regs [(1, 1)]).reg 1).toNat := by decide

theorem test_witness_SecondSubtractTakesTheConfiguredDirection :
    Config.standard.subnReversed = false ∧ Config.subnReversed { subnReversed := true } = true := by decide

theorem test_witness_RandomWritesAMaskedByteOfTheSource : (0x0F#8).getLsbD 4 = false := by decide

/-- The bottom right pixel. -/
theorem test_witness_pixels_of_the_display_statements :
    63 ≤ 63 ∧ 31 ≤ 31 ∧ Framebuffer.pixel (picture [(63, 31)]) 63 31 = true ∧ spriteAt [0x80#8] 63 31 63 31 = true := by decide

/-- No row beyond memory, the last cell, and one row too many. -/
theorem test_witness_DrawCompositesTheSpriteAtI :
    let s : State := { State.reset with i := 0xFFF#16 }
    ((0#4 : Nibble) = 0#4 ∨ s.base + (0#4).toNat ≤ 4096) ∧ ((1#4 : Nibble) = 0#4 ∨ s.base + (1#4).toNat ≤ 4096) ∧
      0 < (1#4).toNat ∧ ¬ ((2#4 : Nibble) = 0#4 ∨ s.base + (2#4).toNat ≤ 4096) ∧ (14#4 : RegIdx) ≠ flagReg := by decide

/-- The last key, and the first code that names none. -/
theorem test_witness_KeySkipsAskTheInputSource :
    ((regs [(4, 15)]).reg 4).toNat = (15#4 : KeyCode).toNat ∧ 15 < ((regs [(4, 16)]).reg 4).toNat := by decide

theorem test_witness_WaitForKeySuspendsTheCore :
    State.wait { State.reset with wait := some 5#4 } = some 5#4 ∧ State.schedule { State.reset with wait := some 5#4 } = [] ∧
      State.wait { State.reset with wait := some 5#4, schedule := [.cycle] } = some 5#4 ∧
      State.schedule { State.reset with wait := some 5#4, schedule := [.cycle] } = .cycle :: [] := by decide

theorem test_witness_KeyEventCompletesTheWait :
    State.schedule { State.reset with wait := some 5#4, schedule := [.keyEvent 0xB#4] } = .keyEvent 0xB#4 :: [] ∧
      State.wait { State.reset with wait := some 5#4, schedule := [.keyEvent 0xB#4] } = some 5#4 ∧
      State.schedule { State.reset with schedule := [.keyEvent 0xB#4] } = .keyEvent 0xB#4 :: [] ∧
      State.wait { State.reset with schedule := [.keyEvent 0xB#4] } = none ∧ (4#4 : RegIdx) ≠ 5#4 := by decide

theorem test_witness_TicksCountDownToZero :
    State.schedule { State.reset with schedule := [.tickGeneral] } = .tickGeneral :: [] ∧
      State.schedule { State.reset with schedule := [.tickSound] } = .tickSound :: [] := by decide

/-- The last place with room, the first without, and the last address. -/
theorem test_witness_DecimalDigitsAreStoredAtI :
    State.base { State.reset with i := 0xFFD#16 } ≤ 4093 ∧ 4094 ≤ State.base { State.reset with i := 0xFFE#16 } ∧
      State.base { State.reset with i := 0xFFF#16 } ≤ 4095 ∧
      (4092 < State.base { State.reset with i := 0xFFD#16 }) := by decide

theorem test_witness_StoreRegistersWritesTheRunAtI :
    4095 < State.base { State.reset with i := 0xFFE#16 } + (2#4).toNat ∧
      ¬ 4095 < State.base { State.reset with i := 0xFFE#16 } + (1#4).toNat ∧ (1#4 : RegIdx).toNat ≤ (1#4 : RegIdx).toNat ∧
      4093 < State.base { State.reset with i := 0xFFE#16 } := by decide

theorem test_witness_LoadRegistersReadsTheRunAtI :
    4095 < State.base { State.reset with i := 0xFF1#16 } + (15#4).toNat ∧
      ¬ 4095 < State.base { State.reset with i := 0xFF0#16 } + (15#4).toNat := by decide

/-- An instruction of the six, and one of the others. -/
theorem test_witness_OnlySixInstructionsWriteTheFlagAsASideEffect :
    (∃ t, exec (.addReg 0#4 1#4) State.reset = .next t) ∧ namesDest (.addReg 0#4 1#4) flagReg = false ∧
      setsFlag (.addReg 0#4 1#4) = true ∧
      (∃ t, exec (.ldImm 0#4 1#8) State.reset = .next t) ∧ namesDest (.ldImm 0#4 1#8) flagReg = false ∧
      setsFlag (.ldImm 0#4 1#8) = false :=
  ⟨⟨_, rfl⟩, by decide, by decide, ⟨_, rfl⟩, by decide, by decide⟩

/-- A register outside a load's run, and `VF` beside an instruction that does not set it. -/
theorem test_witness_UnnamedRegistersAreUnchanged :
    (∃ t, exec (.load 2#4) State.reset = .next t) ∧ namesDest (.load 2#4) 3#4 = false ∧
      (3#4 = flagReg → setsFlag (.load 2#4) = false) ∧ namesDest (.load 2#4) flagReg = false ∧
      (flagReg = flagReg → setsFlag (.load 2#4) = false) :=
  ⟨⟨_, rfl⟩, by decide, by decide, by decide, by decide⟩

/-- One instruction, `JP`, is outside every list of the statement. -/
theorem test_witness_SpecialCellsChangeOnlyByTheirInstructions :
    (∃ t, exec (.jp 0x300#12) State.reset = .next t) ∧ (∀ nnn, Instr.jp 0x300#12 ≠ .ldI nnn) ∧
      (∀ x, Instr.jp 0x300#12 ≠ .addI x) ∧ (∀ nnn, Instr.jp 0x300#12 ≠ .call nnn) ∧ Instr.jp 0x300#12 ≠ .ret ∧
      (∀ x, Instr.jp 0x300#12 ≠ .ldDtVx x) ∧ (∀ x, Instr.jp 0x300#12 ≠ .ldStVx x) ∧ Instr.jp 0x300#12 ≠ .cls ∧
      (∀ x y n, Instr.jp 0x300#12 ≠ .drw x y n) ∧ (∀ x, Instr.jp 0x300#12 ≠ .ldVxK x) ∧
      (∀ x nn, Instr.jp 0x300#12 ≠ .rnd x nn) ∧ (∀ x, Instr.jp 0x300#12 ≠ .skp x) ∧ (∀ x, Instr.jp 0x300#12 ≠ .sknp x) := by
  refine ⟨⟨_, rfl⟩, ?_⟩; simp

/-- The cells just below and just above the bytes of `FX33` and of `FX55`. -/
theorem test_witness_MemoryChangesOnlyWhereAStoreWrites :
    let s : State := { State.reset with i := 0x300#16 }
    (∃ t, exec (.bcd 0#4) s = .next t) ∧ (∃ t, exec (.store 2#4) s = .next t) ∧ (0x2FF < s.base ∨ s.base + 3 ≤ 0x2FF) ∧
      (0x303 < s.base ∨ s.base + 3 ≤ 0x303) ∧ (0x303 < s.base ∨ s.base + (2#4 : RegIdx).toNat < 0x303) :=
  ⟨⟨_, rfl⟩, ⟨_, rfl⟩, by decide, by decide, by decide⟩

theorem test_witness_EveryStepKeepsMemoryCanonical :
    (running 0xF0#8 0x55#8).mem.wf ∧ ∃ t, step (running 0xF0#8 0x55#8) = .next t := ⟨by decide, _, rfl⟩

/-- A call on a stack of fifteen; an addition past the largest address. -/
theorem test_witness_EveryStepKeepsTheCallStackAndTheAddressRegisterBounded :
    let s : State := { running 0x23#8 0x00#8 with stack := List.replicate 15 0xFFE#12 }
    let u : State := { running 0xF1#8 0x1E#8 with i := 0xFFF#16, v := (regs [(1, 1)]).v }
    (StackBounded s ∧ ∃ t, step s = .next t) ∧ AddressBounded u ∧ ∃ t, step u = .next t :=
  ⟨⟨by decide, _, rfl⟩, by decide, _, rfl⟩

/-- A waiting core whose `pc` holds the `FX0A`, at a cycle and at a key press; and a core that is about to wait. -/
theorem test_witness_EveryStepKeepsTheKeyWaitOnItsInstruction :
    let s : State := { running 0xF5#8 0x0A#8 with wait := some 5#4 }
    KeyWaitHolds s ∧ (∃ t, step s = .next t) ∧
      KeyWaitHolds { s with schedule := [.keyEvent 1#4] } ∧ (∃ t, step { s with schedule := [.keyEvent 1#4] } = .next t) ∧
      KeyWaitHolds (running 0xF5#8 0x0A#8) ∧ (∃ t, step (running 0xF5#8 0x0A#8) = .next t) := by
  refine ⟨?_, ⟨_, rfl⟩, ?_, ⟨_, rfl⟩, ?_, ⟨_, rfl⟩⟩ <;> unfold KeyWaitHolds <;> decide

/-- The indexed jump that reaches the bound (2.2). -/
theorem test_witness_EveryStepKeepsTheProgramCounterBounded :
    let s := withBytes (regs [(0, 0xFF)]) 0x200 [0xBF#8, 0xFF#8]
    PcBounded s ∧ KeyWaitHolds s ∧ (nextState (step s)).map State.pc = some 0x10FE#16 := by
  refine ⟨by decide, ?_, by decide⟩; unfold KeyWaitHolds; decide

theorem test_witness_TheSoundTimerInfluencesNothing :
    (∃ t, step (running 0xF3#8 0x18#8) = .next t) ∧ ∃ f, step State.reset = .fault f := ⟨⟨_, rfl⟩, _, rfl⟩

theorem test_witness_TheStepIsTheParametricStepAtTheDefaults :
    Config.standard.cat0Mask = 0x0FF#12 ∧ Config.standard.iWidth = 12 ∧ Config.standard.stackDepth = some 16 ∧ Config.standard.retOffset = 0 ∧
      Config.standard.subnReversed = false ∧ Config.standard.keyOor = false ∧ Config.standard.hasFont = false := by decide

/-- Both sides of every parameter, and an instruction that reads none. -/
theorem test_witness_EachParameterHasItsStatedEffect :
    State.stack { State.reset with stack := [0x204#12] } = [] ++ [0x204#12] ∧
      Config.stackDepth { stackDepth := some 1 } = some (State.stack { State.reset with stack := [0x204#12] }).length ∧
      Config.stackDepth { stackDepth := some 1 } ≠ some State.reset.stack.length ∧
      Config.stackDepth { stackDepth := none } = none ∧
      Config.subnReversed { subnReversed := true } = true ∧ Config.standard.subnReversed = false ∧ (0#4 : RegIdx) ≠ flagReg ∧
      15 < ((regs [(4, 16)]).reg 4).toNat ∧ Config.standard.cat0Mask = 0x0FF#12 ∧
      Config.cat0Mask { cat0Mask := 0xFFF#12 } = 0xFFF#12 ∧
      (category 0x01E0#16 = 0#4 ∧ fieldX (payload 0x01E0#16) ≠ 0#4) ∧
      ¬ (category 0x00E0#16 = 0#4 ∧ fieldX (payload 0x00E0#16) ≠ 0#4) ∧
      Config.iWidth { iWidth := 16 } ≤ 16 ∧ 4095 < State.base { State.reset with i := 0x1000#16 } ∧ (1#4 : Nibble) ≠ 0#4 ∧
      Config.hasFont { hasFont := true } = true ∧ Config.standard.hasFont = false ∧ readsParameter .cls = false := by decide

end Sys2Proof.Tests
end

section
/-! PROOFS. The state's cells (`10_state.md`): what they hold after reset, and what a register write does. -/

namespace Sys2Proof.Machine

/-! ### Bytes and memory after reset -/

/-- A byte made from an integer is that integer modulo 256, negative integers included (R22). -/
theorem toNat_byte_ofInt (n : Int) : ((BitVec.ofInt 8 n).toNat : Int) = n % 256 := by
  rw [BitVec.toNat_ofInt, Int.toNat_of_nonneg (Int.emod_nonneg n (by decide))]
  rfl

/-- No cell is listed after reset, so each reads 0 (R29, R35). -/
@[simp] theorem read_reset (a : Nat) : State.reset.mem.read a = 0#8 := read_nil a

/-- A one-byte read inside memory gives that cell. -/
theorem memRead_one_inside (s : State) {a : Nat} (h : a ≤ 4095) : s.memRead a 1 = .ok [s.mem.read a] :=
  memRead_inside s (by omega)

/-- A one-byte read above memory reports its own address (R52). -/
theorem memRead_one_outside (s : State) {a : Nat} (h : 4095 < a) : s.memRead a 1 = .error (.outOfRange a) := by
  rw [memRead_outside s (by omega), Nat.max_eq_left h]

/-! ### One register write (R22) -/

theorem reg_writeReg_same (s : State) (x : RegIdx) (n : Int) : (s.writeReg x n).reg x = BitVec.ofInt 8 n :=
  reg_putReg_same s x _

theorem reg_writeReg_ne (s : State) {x r : RegIdx} (n : Int) (h : r ≠ x) : (s.writeReg x n).reg r = s.reg r :=
  reg_putReg_ne s _ h

/-- The register file is the only field a register write touches. -/
theorem writeReg_frame (s : State) (x : RegIdx) (n : Int) : s.writeReg x n = { s with v := (s.writeReg x n).v } := rfl

/-! ### The statements -/

/-- Settles O1, by the one-byte reads inside and above memory. -/
theorem resetBeginsAt0x200WithZeroMemory : Obligations.ResetBeginsAt0x200WithZeroMemory := by
  refine ⟨rfl, fun a h => ?_, fun a h => memRead_one_outside State.reset h⟩
  rw [memRead_one_inside State.reset h, read_reset]

/-- Settles O4, by what a register reads after a write to the same and to another register. -/
theorem registerWriteStoresModulo256 : Obligations.RegisterWriteStoresModulo256 := by
  refine fun s x r n => ⟨?_, reg_writeReg_ne s n, writeReg_frame s x n⟩
  rw [reg_writeReg_same, toNat_byte_ofInt]

end Sys2Proof.Machine
end

section
/-! PROOFS. Memory (`20_memory.md`): what a range write leaves in the cells, and the word two cells make. -/

namespace Sys2Proof.Machine

/-! ### Range writes (R51) -/

/-- Where the range is inside memory, the write puts its integers there as bytes and touches memory alone. -/
theorem memWrite_inside (s : State) {a : Nat} {ns : List Int} (h : ns.length = 0 ∨ a + ns.length ≤ 4096) :
    s.memWrite a ns = .ok { s with mem := s.mem.writeBytes a (ns.map (BitVec.ofInt 8)) } :=
  memStore_inside s (by simpa using h)

/-- The `k`-th cell of a written range holds the `k`-th byte. -/
theorem read_writeBytes_inside (m : Memory) (a : Nat) (bs : List Byte) {k : Nat} (h : k < bs.length) :
    (m.writeBytes a bs).read (a + k) = bs[k] := by
  rw [read_writeBytes, if_pos (Nat.le_add_right a k), Nat.add_sub_cancel_left, List.getElem?_eq_getElem h, Option.getD_some]

/-! ### The word of two bytes (R54) -/

/-- The byte at the lower address is the high half of the word. -/
theorem toNat_wordOfBytes (hi lo : Byte) : (wordOfBytes hi lo).toNat = hi.toNat * 256 + lo.toNat :=
  calc (hi ++ lo).toNat
    _ = hi.toNat <<< 8 ||| lo.toNat := BitVec.toNat_append hi lo
    _ = hi.toNat <<< 8 + lo.toNat := (Nat.shiftLeft_add_eq_or_of_lt lo.isLt hi.toNat).symm
    _ = hi.toNat * 256 + lo.toNat := by rw [Nat.shiftLeft_eq]

/-! ### The statements -/

/-- Settles O5, by what a cell inside and a cell outside a written range reads. -/
theorem rangeWriteReadsBackModulo256 : Obligations.RangeWriteReadsBackModulo256 := by
  intro s a ns hr
  refine ⟨_, memWrite_inside s (.inr hr), fun k hk => ?_, memRead_inside _ (.inr hr), fun x hx => ?_, rfl⟩
  · have hk' : k < (ns.map (BitVec.ofInt 8)).length := by simpa using hk
    rw [read_writeBytes_inside _ _ _ hk', List.getElem_map, toNat_byte_ofInt]
  · exact read_writeBytes_outside s.mem a _ (by simpa using hx)

/-- Settles O14, by the fetch inside memory and the word its two bytes make. -/
theorem fetchIsBigEndian : Obligations.FetchIsBigEndian :=
  fun s h => ⟨_, fetch_inside s h, toNat_wordOfBytes _ _⟩

end Sys2Proof.Machine
end

section
/-! PROOFS. Control transfer (`40_cycle_and_control_flow.md`): jumps and skips move `pc` and nothing else. -/

namespace Sys2Proof.Machine

/-! ### Retiring at a target (R100, R102) -/

/-- A transfer leaves its target in the program counter. -/
theorem JumpsTo.pc_eq {s t : State} {target : Word} (h : JumpsTo s t target) : t.pc = target := by
  rw [h]

/-- A cycle that only retires is a transfer to its `next_pc`, narrowed to the counter's sixteen bits (R27). -/
theorem retire_jumpsTo (s : State) (n : Nat) : ∃ t, s.retire n = .next t ∧ JumpsTo s t (BitVec.ofNat 16 n) :=
  ⟨_, retire_eq s n, rfl⟩

/-- A `next_pc` that fits the counter is reached exactly. -/
theorem retire_reaches (s : State) {n : Nat} (h : n < 2 ^ 16) :
    ∃ t, s.retire n = .next t ∧ t.pc.toNat = n ∧ JumpsTo s t t.pc := by
  obtain ⟨t, ht, hj⟩ := retire_jumpsTo s n
  have hpc : t.pc = BitVec.ofNat 16 n := hj.pc_eq
  exact ⟨t, ht, by rw [hpc, BitVec.toNat_ofNat, Nat.mod_eq_of_lt h], hpc ▸ hj⟩

/-- A skip on a test `b` that decides `p` goes to `pc + 4` where `p` holds and to `pc + 2` elsewhere (R102). -/
theorem retire_nextSkip_jumpsTo (s : State) {b : Bool} {p : Prop} [Decidable p] (h : b = true ↔ p) :
    ∃ t, s.retire (s.nextSkip b) = .next t ∧ JumpsTo s t (if p then s.pc + 4#16 else s.pc + 2#16) := by
  simpa only [ofNat_nextSkip, h] using retire_jumpsTo s (s.nextSkip b)

/-! ### The `next_pc` of each instruction (R105, R107 to R111) -/

theorem exec_jp (nnn : Addr) (s : State) : exec (.jp nnn) s = s.retire nnn.toNat := rfl

theorem exec_jpV0 (nnn : Addr) (s : State) : exec (.jpV0 nnn) s = s.retire ((s.reg 0#4).toNat + nnn.toNat) := rfl

theorem exec_seImm (x : RegIdx) (nn : Byte) (s : State) :
    exec (.seImm x nn) s = s.retire (s.nextSkip (s.reg x == nn)) := rfl

theorem exec_sneImm (x : RegIdx) (nn : Byte) (s : State) :
    exec (.sneImm x nn) s = s.retire (s.nextSkip (s.reg x != nn)) := rfl

theorem exec_seReg (x y : RegIdx) (s : State) :
    exec (.seReg x y) s = s.retire (s.nextSkip (s.reg x == s.reg y)) := rfl

theorem exec_sneReg (x y : RegIdx) (s : State) :
    exec (.sneReg x y) s = s.retire (s.nextSkip (s.reg x != s.reg y)) := rfl

/-- R109. -/
theorem exec_seReg_jumpsTo (s : State) (x y : RegIdx) :
    ∃ t, exec (.seReg x y) s = .next t ∧ JumpsTo s t (if s.reg x = s.reg y then s.pc + 4#16 else s.pc + 2#16) := by
  rw [exec_seReg]
  exact retire_nextSkip_jumpsTo s beq_iff_eq

/-- R110. -/
theorem exec_sneReg_jumpsTo (s : State) (x y : RegIdx) :
    ∃ t, exec (.sneReg x y) s = .next t ∧ JumpsTo s t (if s.reg x ≠ s.reg y then s.pc + 4#16 else s.pc + 2#16) := by
  rw [exec_sneReg]
  exact retire_nextSkip_jumpsTo s bne_iff_ne

/-! ### The statements -/

/-- Settles O18: a twelve-bit constant fits the counter. -/
theorem jumpGoesToItsTarget : Obligations.JumpGoesToItsTarget := by
  intro s nnn
  rw [exec_jp]
  exact retire_reaches s (by omega)

/-- Settles O19: the sum is at most 255 + 4095, so the counter holds it unreduced. -/
theorem indexedJumpAddsRegisterZeroExactly : Obligations.IndexedJumpAddsRegisterZeroExactly := by
  intro s nnn
  rw [exec_jpV0]
  exact retire_reaches s (by omega)

/-- Settles O20: each test decides its condition on `V[x]` and the constant. -/
theorem skipsOnAConstantCompareTheRegister : Obligations.SkipsOnAConstantCompareTheRegister := by
  intro s x nn
  rw [exec_seImm, exec_sneImm]
  exact ⟨retire_nextSkip_jumpsTo s beq_iff_eq, retire_nextSkip_jumpsTo s bne_iff_ne⟩

/-- Settles O21; the corner X = Y is the general transfer with a condition that is decided. -/
theorem skipsOnTwoRegistersCompareThem : Obligations.SkipsOnTwoRegistersCompareThem := by
  refine ⟨fun s x y => ⟨exec_seReg_jumpsTo s x y, exec_sneReg_jumpsTo s x y⟩, fun s x => ⟨?_, ?_⟩⟩
  · obtain ⟨t, ht, hj⟩ := exec_seReg_jumpsTo s x x
    exact ⟨t, ht, by rw [hj.pc_eq, if_pos rfl]⟩
  · obtain ⟨t, ht, hj⟩ := exec_sneReg_jumpsTo s x x
    exact ⟨t, ht, by rw [hj.pc_eq, if_neg (not_ne_iff.mpr rfl)]⟩

end Sys2Proof.Machine
end

section
/-! PROOFS. Loads, the constant add and the logic instructions (`41_load_alu.md` R132 to R137): one register write, no flag. -/

namespace Sys2Proof.Machine

/-! ### A register write that goes on to `pc + 2` (R101) -/

/-- A cycle that changed the register file alone before it retired at the next instruction keeps those registers, and advances. -/
theorem retire_regsAdvance {s u : State} (hu : u = { s with v := u.v }) :
    ∃ t, u.retire s.nextSequential = .next t ∧ (∀ r, t.reg r = u.reg r) ∧ RegsAdvance s t := by
  refine ⟨_, retire_eq u _, fun _ => rfl, ?_⟩
  rw [RegsAdvance, ofNat_nextSequential, hu]

/-- With one byte put in `V[x]` before it, the destination holds that byte and no other register changes. -/
theorem putReg_retire_regsAdvance (s : State) (x : RegIdx) (b : Byte) :
    ∃ t, (s.putReg x b).retire s.nextSequential = .next t ∧ t.reg x = b ∧ (∀ r, r ≠ x → t.reg r = s.reg r) ∧
      RegsAdvance s t := by
  have hframe : s.putReg x b = { s with v := (s.putReg x b).v } := rfl
  obtain ⟨t, ht, hregs, hadv⟩ := retire_regsAdvance hframe
  exact ⟨t, ht, by rw [hregs, reg_putReg_same], fun r hr => by rw [hregs, reg_putReg_ne s b hr], hadv⟩

/-- Where the byte is `op a b` and `op` acts on each bit as `bop`, so does the destination, bit by bit. -/
theorem putReg_retire_bitwise {op : Byte → Byte → Byte} {bop : Bool → Bool → Bool}
    (hop : ∀ (a b : Byte) (k : Nat), (op a b).getLsbD k = bop (a.getLsbD k) (b.getLsbD k)) (s : State) (x : RegIdx) (a b : Byte) :
    ∃ t, (s.putReg x (op a b)).retire s.nextSequential = .next t ∧
      (∀ k, (t.reg x).getLsbD k = bop (a.getLsbD k) (b.getLsbD k)) ∧ (∀ r, r ≠ x → t.reg r = s.reg r) ∧
      RegsAdvance s t := by
  obtain ⟨t, ht, hx, hregs, hadv⟩ := putReg_retire_regsAdvance s x (op a b)
  exact ⟨t, ht, fun k => by rw [hx, hop], hregs, hadv⟩

/-! ### The write of each instruction (R132 to R137) -/

theorem exec_ldImm (x : RegIdx) (nn : Byte) (s : State) :
    exec (.ldImm x nn) s = (s.putReg x nn).retire s.nextSequential := rfl

theorem exec_addImm (x : RegIdx) (nn : Byte) (s : State) :
    exec (.addImm x nn) s = (s.putReg x (BitVec.ofInt 8 ((s.reg x).toNat + nn.toNat))).retire s.nextSequential := rfl

theorem exec_ldReg (x y : RegIdx) (s : State) :
    exec (.ldReg x y) s = (s.putReg x (s.reg y)).retire s.nextSequential := rfl

theorem exec_or (x y : RegIdx) (s : State) :
    exec (.or x y) s = (s.putReg x (s.reg x ||| s.reg y)).retire s.nextSequential := rfl

theorem exec_and (x y : RegIdx) (s : State) :
    exec (.and x y) s = (s.putReg x (s.reg x &&& s.reg y)).retire s.nextSequential := rfl

theorem exec_xor (x y : RegIdx) (s : State) :
    exec (.xor x y) s = (s.putReg x (s.reg x ^^^ s.reg y)).retire s.nextSequential := rfl

/-- The byte made from the exact sum of two bytes is their sum modulo 256. -/
theorem toNat_byte_ofInt_add (a b : Byte) : (BitVec.ofInt 8 (a.toNat + b.toNat)).toNat = (a.toNat + b.toNat) % 256 := by
  have h := toNat_byte_ofInt (a.toNat + b.toNat)
  omega

/-! ### The statements -/

/-- Settles O25: each is one byte put in the destination. -/
theorem loadConstantAndCopyWriteTheDestination : Obligations.LoadConstantAndCopyWriteTheDestination := by
  intro s x y nn
  rw [exec_ldImm, exec_ldReg]
  exact ⟨putReg_retire_regsAdvance s x nn, putReg_retire_regsAdvance s x (s.reg y)⟩

/-- Settles O26: the byte put in the destination is made from the exact sum, so the carry out of bit 7 is lost. -/
theorem addConstantWrapsWithoutAFlag : Obligations.AddConstantWrapsWithoutAFlag := by
  intro s x nn
  rw [exec_addImm]
  obtain ⟨t, ht, hx, hregs, hadv⟩ :=
    putReg_retire_regsAdvance s x (BitVec.ofInt 8 ((s.reg x).toNat + nn.toNat))
  exact ⟨t, ht, by rw [hx, toNat_byte_ofInt_add], hregs, hadv⟩

/-- Settles O27: the three operations on bytes act bit by bit. -/
theorem logicWritesTheDestinationWithoutAFlag : Obligations.LogicWritesTheDestinationWithoutAFlag := by
  intro s x y
  rw [exec_or, exec_and, exec_xor]
  exact ⟨putReg_retire_bitwise (fun _ _ _ => BitVec.getLsbD_or) s x _ _,
    putReg_retire_bitwise (fun _ _ _ => BitVec.getLsbD_and) s x _ _,
    putReg_retire_bitwise (fun _ _ _ => BitVec.getLsbD_xor) s x _ _⟩

end Sys2Proof.Machine
end

section
/-! PROOFS. The display (`42_display.md`): the clear switches every pixel off and goes on to `pc + 2`. -/

namespace Sys2Proof.Machine

/-! ### The clear (R160) -/

theorem exec_cls (s : State) :
    exec .cls s = State.retireDrawn { s with fb := clearedFramebuffer } s.nextSequential := rfl

/-- The clear completes from every state: the picture is the cleared one whatever it was, and `pc` is at the next
instruction. -/
theorem exec_cls_next (s : State) :
    exec .cls s = .next { s with fb := clearedFramebuffer, pc := s.pc + 2#16, displayDirty := true } := by
  rw [exec_cls, retireDrawn_eq, ofNat_nextSequential]

/-! ### The statements -/

/-- Settles O33: the next state holds the cleared picture, in which each pixel reads off. -/
theorem clearTurnsEveryPixelOff : Obligations.ClearTurnsEveryPixelOff :=
  fun s => ⟨_, exec_cls_next s, fun x y _ _ => pixel_cleared x y, rfl⟩

end Sys2Proof.Machine
end

section
/-! PROOFS. The timer instructions (`43_input_timers.md` R182, R183, R186): one byte moves between a register and a timer. -/

namespace Sys2Proof.Machine

/-! ### A byte written to a timer (R31) -/

/-- Making a byte from a byte's own value loses nothing. -/
theorem byte_ofInt_toNat (b : Byte) : BitVec.ofInt 8 b.toNat = b := by
  rw [BitVec.ofInt_natCast, BitVec.ofNat_toNat, BitVec.setWidth_eq]

theorem writeDt_toNat (s : State) (b : Byte) : s.writeDt b.toNat = { s with dt := b } := by
  rw [State.writeDt, byte_ofInt_toNat]

theorem writeSt_toNat (s : State) (b : Byte) : s.writeSt b.toNat = { s with st := b } := by
  rw [State.writeSt, byte_ofInt_toNat]

/-! ### The move of each instruction (R182, R183, R186) -/

theorem exec_ldVxDt (x : RegIdx) (s : State) :
    exec (.ldVxDt x) s = (s.putReg x s.dt).retire s.nextSequential := rfl

theorem exec_ldDtVx (x : RegIdx) (s : State) :
    exec (.ldDtVx x) s = (s.writeDt (s.reg x).toNat).retire s.nextSequential := rfl

theorem exec_ldStVx (x : RegIdx) (s : State) :
    exec (.ldStVx x) s = (s.writeSt (s.reg x).toNat).retire s.nextSequential := rfl

/-- R183: the general timer is replaced whatever it counted, and the cycle goes on to `pc + 2`. -/
theorem exec_ldDtVx_next (x : RegIdx) (s : State) :
    exec (.ldDtVx x) s = .next { s with dt := s.reg x, pc := s.pc + 2#16, displayDirty := false } := by
  rw [exec_ldDtVx, writeDt_toNat, retire_eq, ofNat_nextSequential]

/-- R186: the same for the sound timer. -/
theorem exec_ldStVx_next (x : RegIdx) (s : State) :
    exec (.ldStVx x) s = .next { s with st := s.reg x, pc := s.pc + 2#16, displayDirty := false } := by
  rw [exec_ldStVx, writeSt_toNat, retire_eq, ofNat_nextSequential]

/-! ### The statements -/

/-- Settles O38: the read is one byte put in the destination, each write one timer replaced by the register's byte. -/
theorem timerInstructionsMoveOneByte : Obligations.TimerInstructionsMoveOneByte := by
  intro s x
  refine ⟨?_, ⟨_, exec_ldDtVx_next x s, rfl⟩, ⟨_, exec_ldStVx_next x s, rfl⟩⟩
  rw [exec_ldVxDt]
  exact putReg_retire_regsAdvance s x s.dt

end Sys2Proof.Machine
end

section
/-! PROOFS. Decimal digits in memory (`44_address_memory.md` R203): `FX33` is one range write of three digits. -/

namespace Sys2Proof.Machine

/-! ### A range write that leaves memory (R52) -/

/-- It writes nothing and reports the lowest address outside. -/
theorem memWrite_outside (s : State) {a : Nat} {ns : List Int} (h : ¬ (ns.length = 0 ∨ a + ns.length ≤ 4096)) :
    s.memWrite a ns = .error (.outOfRange (max a 4096)) :=
  memStore_outside s (by simpa using h)

/-! ### The three digits (R203) -/

@[simp] theorem decimalDigits_length (b : Byte) : (decimalDigits b).length = 3 := rfl

/-- The hundreds are at most 2 and the others at most 9, so a cell's modulus (R51) takes nothing from a digit. -/
theorem decimalDigits_emod (b : Byte) {k : Nat} (hk : k < (decimalDigits b).length) :
    (decimalDigits b)[k] % 256 = (decimalDigits b)[k] := by
  have hfit : ∀ n ∈ decimalDigits b, 0 ≤ n ∧ n < 256 := by
    simp only [decimalDigits, List.forall_mem_cons, List.not_mem_nil, false_implies, implies_true, and_true]
    omega
  obtain ⟨hnonneg, hlt⟩ := hfit _ (List.getElem_mem hk)
  exact Int.emod_eq_of_lt hnonneg hlt

/-! ### The write of `FX33` -/

theorem exec_bcd (x : RegIdx) (s : State) :
    exec (.bcd x) s = orRaise (s.memWrite s.base (decimalDigits (s.reg x))) fun t => t.retire s.nextSequential := rfl

/-- Where one of the three addresses is outside, the whole instruction fails. -/
theorem exec_bcd_outside {s : State} (x : RegIdx) (h : 4094 ≤ s.base) :
    exec (.bcd x) s = .fault (.outOfRange (max s.base 4096)) := by
  rw [exec_bcd, memWrite_outside s (by rw [decimalDigits_length]; omega), orRaise_error]

/-- Inside memory, the three cells hold the three digits; memory and `pc` are all that changes. -/
theorem exec_bcd_inside {s : State} (x : RegIdx) (h : s.base ≤ 4093) :
    ∃ t, exec (.bcd x) s = .next t ∧
      (∀ k (hk : k < (decimalDigits (s.reg x)).length),
        ((t.mem.read (s.base + k)).toNat : Int) = (decimalDigits (s.reg x))[k]) ∧
      (∀ a, a < s.base ∨ s.base + 3 ≤ a → t.mem.read a = s.mem.read a) ∧
      t = { s with mem := t.mem, pc := s.pc + 2#16, displayDirty := t.displayDirty } := by
  have hroom : s.base + (decimalDigits (s.reg x)).length ≤ 4096 := by rw [decimalDigits_length]; omega
  obtain ⟨u, hwrite, hcells, -, hothers, hframe⟩ :=
    rangeWriteReadsBackModulo256 s s.base (decimalDigits (s.reg x)) hroom
  refine ⟨{ u with pc := s.pc + 2#16, displayDirty := false }, ?_, fun k hk => ?_, hothers, ?_⟩
  · rw [exec_bcd, hwrite, orRaise_ok, retire_eq, ofNat_nextSequential]
  · rw [← decimalDigits_emod (s.reg x) hk]
    exact hcells k hk
  · rw [hframe]

/-! ### The statements -/

/-- Settles O45: the three cells are the digits of the one range write, which fails exactly from 4094 on. -/
theorem decimalDigitsAreStoredAtI : Obligations.DecimalDigitsAreStoredAtI := by
  refine fun s x => ⟨fun hin => ?_, fun hout hmax => ?_⟩
  · obtain ⟨t, ht, hdigit, hothers, hframe⟩ := exec_bcd_inside x hin
    exact ⟨t, ht, Int.ofNat_inj.mp (hdigit 0 (by simp)), Int.ofNat_inj.mp (hdigit 1 (by simp)),
      Int.ofNat_inj.mp (hdigit 2 (by simp)), hothers, hframe⟩
  · rw [exec_bcd_outside x hout, Nat.max_eq_right (by omega)]

end Sys2Proof.Machine
end

section
/-! PROOFS. The decoder (`30_encoding.md`): its two levels are one table of rows, so the opcode map of R83 and the sets of
unknown words of R77 are read off that table. -/

namespace Sys2Proof

/-! ### An entry as a mask and a list of rows (R74 to R76) -/

/-- The bits of the payload an entry looks at: none where it is a single handler. -/
def Entry.keyMask : Entry → Addr
  | .single _ => 0#12
  | .sub mask _ => mask

/-- The keys an entry knows, with their handlers. -/
def Entry.rows : Entry → List (Addr × Tag)
  | .single t => [(0#12, t)]
  | .sub _ table => table

/-- Both kinds of entry look the masked payload up among their rows. -/
theorem resolve_eq_lookup (e : Entry) (r : Addr) : resolve e r = e.rows.lookup (r &&& e.keyMask) := by
  cases e with
  | single t => simp [resolve, Entry.rows, Entry.keyMask]
  | sub mask table => rfl

/-- The entry of a category at the default `CAT0_MASK`. -/
def entryOf (c : BitVec 4) : Entry := (level1 Config.standard)[c.toNat]'c.isLt

theorem decodeTag_eq_lookup (w : Word) :
    decodeTagUnder Config.standard w =
      (entryOf (category w)).rows.lookup (payload w &&& (entryOf (category w)).keyMask) :=
  resolve_eq_lookup _ _

/-! ### The rows are those of the opcode map (R83) -/

/-- Each row of the table stands in the opcode map, in its category and under its mask. -/
theorem rows_in_opcode_map : ∀ c : BitVec 4, ∀ p ∈ (entryOf c).rows,
    category p.2.rowMatch = c ∧ payload p.2.rowMatch = p.1 ∧ payload p.2.rowMask = (entryOf c).keyMask := by
  decide

/-- Each row of the opcode map stands in the table, under its own key. -/
theorem lookup_rowMatch (t : Tag) :
    (entryOf (category t.rowMatch)).rows.lookup (payload t.rowMatch) = some t := by
  cases t <;> rfl

theorem keyMask_rowMatch (t : Tag) : (entryOf (category t.rowMatch)).keyMask = payload t.rowMask := by
  cases t <;> rfl

/-- The lookup finds a handler only where its category and its masked key are those of the handler's row. -/
theorem lookup_eq_some_iff_row (c : BitVec 4) (r : Addr) (t : Tag) :
    (entryOf c).rows.lookup (r &&& (entryOf c).keyMask) = some t ↔
      c = category t.rowMatch ∧ r &&& payload t.rowMask = payload t.rowMatch := by
  constructor
  · intro h
    obtain ⟨l, l', hrows, -⟩ := List.lookup_eq_some_iff.mp h
    have hmem : (r &&& (entryOf c).keyMask, t) ∈ (entryOf c).rows := by simp [hrows]
    obtain ⟨hc, hkey, hmask⟩ := rows_in_opcode_map c _ hmem
    exact ⟨hc.symm, by rw [hmask, hkey]⟩
  · rintro ⟨rfl, hkey⟩
    rw [keyMask_rowMatch, hkey, lookup_rowMatch]

/-- A row's mask covers the category, so a word matches it in its category and in its masked payload, each on its own. -/
theorem rowMask_eq_packWord (t : Tag) : t.rowMask = packWord 0xF#4 (payload t.rowMask) := by
  cases t <;> rfl

theorem and_rowMask (w : Word) (t : Tag) : w &&& t.rowMask = packWord (category w) (payload w &&& payload t.rowMask) := by
  have hc : category w &&& 0xF#4 = category w := BitVec.and_allOnes
  conv_lhs => rw [← word_eq_packWord w, rowMask_eq_packWord t, packWord_and, hc]

theorem packWord_inj {c d : BitVec 4} {r q : Addr} : packWord c r = packWord d q ↔ c = d ∧ r = q := by
  refine ⟨fun h => ⟨?_, ?_⟩, fun ⟨hc, hr⟩ => by rw [hc, hr]⟩
  · simpa using congrArg category h
  · simpa using congrArg payload h

theorem and_rowMask_eq_rowMatch_iff (w : Word) (t : Tag) :
    w &&& t.rowMask = t.rowMatch ↔
      category w = category t.rowMatch ∧ payload w &&& payload t.rowMask = payload t.rowMatch := by
  rw [and_rowMask, ← packWord_inj, word_eq_packWord]

/-- Settles O12: both sides say that category and masked payload are those of the handler's row. -/
theorem twoLevelLookupAgreesWithTheOpcodeMap : Obligations.TwoLevelLookupAgreesWithTheOpcodeMap := by
  intro w t
  rw [decodeTag_eq_lookup, lookup_eq_some_iff_row, and_rowMask_eq_rowMatch_iff]

/-- Settles O9: each is one lookup of a word of fixed bits. -/
theorem writtenOutWordsDecodeAsTheOpcodeMapSays : Obligations.WrittenOutWordsDecodeAsTheOpcodeMapSays := by
  unfold Obligations.WrittenOutWordsDecodeAsTheOpcodeMapSays
  decide

/-! ### Decoding an encoded instruction -/

/-- The encoding of every instruction lands on its own row, with no ignored bit set. -/
theorem encodesItsRow : ∀ i : Instr, Laws.EncodesItsRow.Statement i
  | .cls => Laws.EncodesItsRow.cls
  | .ret => Laws.EncodesItsRow.ret
  | .jp nnn => Laws.EncodesItsRow.jp nnn
  | .call nnn => Laws.EncodesItsRow.call nnn
  | .seImm x nn => Laws.EncodesItsRow.seImm x nn
  | .sneImm x nn => Laws.EncodesItsRow.sneImm x nn
  | .seReg x y => Laws.EncodesItsRow.seReg x y
  | .ldImm x nn => Laws.EncodesItsRow.ldImm x nn
  | .addImm x nn => Laws.EncodesItsRow.addImm x nn
  | .ldReg x y => Laws.EncodesItsRow.ldReg x y
  | .or x y => Laws.EncodesItsRow.or x y
  | .and x y => Laws.EncodesItsRow.and x y
  | .xor x y => Laws.EncodesItsRow.xor x y
  | .addReg x y => Laws.EncodesItsRow.addReg x y
  | .sub x y => Laws.EncodesItsRow.sub x y
  | .shr x => Laws.EncodesItsRow.shr x
  | .subn x y => Laws.EncodesItsRow.subn x y
  | .shl x => Laws.EncodesItsRow.shl x
  | .sneReg x y => Laws.EncodesItsRow.sneReg x y
  | .ldI nnn => Laws.EncodesItsRow.ldI nnn
  | .jpV0 nnn => Laws.EncodesItsRow.jpV0 nnn
  | .rnd x nn => Laws.EncodesItsRow.rnd x nn
  | .drw x y n => Laws.EncodesItsRow.drw x y n
  | .skp x => Laws.EncodesItsRow.skp x
  | .sknp x => Laws.EncodesItsRow.sknp x
  | .ldVxDt x => Laws.EncodesItsRow.ldVxDt x
  | .ldVxK x => Laws.EncodesItsRow.ldVxK x
  | .ldDtVx x => Laws.EncodesItsRow.ldDtVx x
  | .ldStVx x => Laws.EncodesItsRow.ldStVx x
  | .addI x => Laws.EncodesItsRow.addI x
  | .ldFont x => Laws.EncodesItsRow.ldFont x
  | .bcd x => Laws.EncodesItsRow.bcd x
  | .store x => Laws.EncodesItsRow.store x
  | .load x => Laws.EncodesItsRow.load x

/-- The fields the handler cuts from the encoded payload are the instruction's operands (R72). -/
theorem instr_payload_encode (i : Instr) : i.tag.instr (payload (encode i)) = i := by
  cases i <;> simp [Instr.tag, Tag.instr, encode, formatA, formatI, formatR]

theorem decodeWord_encode (i : Instr) : decodeWord (encode i) = some i := by
  obtain ⟨hrow, -⟩ := encodesItsRow i
  have htag : decodeTagUnder Config.standard (encode i) = some i.tag :=
    (twoLevelLookupAgreesWithTheOpcodeMap (encode i) i.tag).mpr hrow
  exact decodeWord_eq_some.mpr ⟨i.tag, htag, instr_payload_encode i⟩

/-- Settles O10: an encoding lands on its own row, whose handler cuts the operands out again. -/
theorem decodingAnEncodedInstructionGivesItBack : Obligations.DecodingAnEncodedInstructionGivesItBack := by
  refine fun i rest => ⟨decodeWord_encode i, ?_⟩
  rw [encodeBytes, decodeBytes_bytesOfWord, decodeWord_encode]

/-! ### Encoding a decoded word (R78) -/

/-- A decoded word stands in the row of the tag whose handler made the instruction. -/
theorem decodeWord_row {w : Word} {i : Instr} (h : decodeWord w = some i) :
    ∃ t : Tag, i = t.instr (payload w) ∧ category w = category t.rowMatch ∧
      payload w &&& payload t.rowMask = payload t.rowMatch := by
  obtain ⟨t, htag, hi⟩ := decodeWord_eq_some.mp h
  rw [decodeTag_eq_lookup, lookup_eq_some_iff_row] at htag
  exact ⟨t, hi.symm, htag⟩

section
variable {w : Word} {c : BitVec 4} (hc : category w = c)
include hc

/-! A word of category `c`, put together from its own fields, is itself. -/

theorem formatA_fields : formatA c (payload w) = w := by
  rw [formatA, ← hc, word_eq_packWord]

theorem formatI_fields : formatI c (fieldX (payload w)) (fieldNN (payload w)) = w := by
  rw [formatI, payload_eq_packPayload, ← hc, word_eq_packWord]

theorem formatR_fields : formatR c (fieldX (payload w)) (fieldY (payload w)) (fieldN (payload w)) = w := by
  rw [formatR, fieldNN_eq_packByte, payload_eq_packPayload, ← hc, word_eq_packWord]

/-- So it is where the low nibble or the low byte is known, as in the rows with a key (R75). -/
theorem formatR_key {n : Nibble} (hn : fieldN (payload w) = n) :
    formatR c (fieldX (payload w)) (fieldY (payload w)) n = w := by
  rw [← hn, formatR_fields hc]

theorem formatI_key {nn : Byte} (hk : payload w &&& 0x0FF#12 = packPayload 0#4 nn) :
    formatI c (fieldX (payload w)) nn = w := by
  have hnn : fieldNN (payload w) = nn := by
    rw [← payload_eq_packPayload (payload w), packPayload_and_low_byte] at hk
    simpa using congrArg fieldNN hk
  rw [← hnn, formatI_fields hc]

end

/-- The key of a row of category 8 is the word's low nibble. -/
theorem fieldN_eq_of_key {r k : Addr} (hk : r &&& 0x00F#12 = k) : fieldN r = fieldN k := by
  rw [← hk, ← payload_eq_packPayload r, ← fieldNN_eq_packByte, packPayload_and_low_nibble]
  simp only [fieldN_packPayload]

theorem formatR_and (c d : BitVec 4) (x y n x' y' n' : Nibble) :
    formatR c x y n &&& formatR d x' y' n' = formatR (c &&& d) (x &&& x') (y &&& y') (n &&& n') := by
  rw [formatR, formatR, packWord_and, packPayload_and, packByte_and, formatR]

theorem and_0xF (n : BitVec 4) : n &&& 0xF#4 = n := BitVec.and_allOnes

/-! The ignored nibbles of categories 5 and 9 and of the shifts are those the encoder leaves 0 (R78). -/

theorem formatR_zero_n {w : Word} {c : BitVec 4} (hc : category w = c) :
    formatR c (fieldX (payload w)) (fieldY (payload w)) 0#4 = w &&& 0xFFF0#16 := by
  conv_rhs => rw [← formatR_fields hc, show (0xFFF0#16 : Word) = formatR 0xF#4 0xF#4 0xF#4 0x0#4 from by decide, formatR_and]
  simp only [and_0xF, BitVec.and_zero]

theorem formatR_zero_y {w : Word} {c : BitVec 4} (hc : category w = c) :
    formatR c (fieldX (payload w)) 0#4 (fieldN (payload w)) = w &&& 0xFF0F#16 := by
  conv_rhs => rw [← formatR_fields hc, show (0xFF0F#16 : Word) = formatR 0xF#4 0xF#4 0x0#4 0xF#4 from by decide, formatR_and]
  simp only [and_0xF, BitVec.and_zero]

/-- A word of a category without ignored bits is canonical. -/
theorem canonicalise_of_category {w : Word} {c : BitVec 4} (hc : category w = c)
    (h : c ≠ 0#4 ∧ c ≠ 5#4 ∧ c ≠ 8#4 ∧ c ≠ 9#4) : canonicalise w = w := by
  have hw := Laws.EncodesItsRow.canonical_of_category c (payload w) h
  rw [← hc, word_eq_packWord] at hw
  exact eq_of_beq hw

theorem canonicalise_zero {w : Word} (hc : category w = 0#4) : canonicalise w = w &&& 0xF0FF#16 := by
  rw [category] at hc; simp [canonicalise, hc]
theorem canonicalise_five {w : Word} (hc : category w = 5#4) : canonicalise w = w &&& 0xFFF0#16 := by
  rw [category] at hc; simp [canonicalise, hc]
theorem canonicalise_nine {w : Word} (hc : category w = 9#4) : canonicalise w = w &&& 0xFFF0#16 := by
  rw [category] at hc; simp [canonicalise, hc]

theorem fieldN_payload (w : Word) : fieldN (payload w) = w.extractLsb' 0 4 := by
  apply BitVec.eq_of_getLsbD_eq; intro k hk
  simp [fieldN, payload, hk]

theorem canonicalise_eight {w : Word} (hc : category w = 8#4) :
    canonicalise w = if fieldN (payload w) = 6#4 ∨ fieldN (payload w) = 0xE#4 then w &&& 0xFF0F#16 else w := by
  rw [fieldN_payload]
  rw [category] at hc
  simp [canonicalise, hc]

/-- Settles O11, by the formats: the fields put together again are the word, but for the ignored nibbles of its row. -/
theorem encodingADecodedWordClearsItsIgnoredBits : Obligations.EncodingADecodedWordClearsItsIgnoredBits := by
  intro w i h
  obtain ⟨t, rfl, hc, hk⟩ := decodeWord_row h
  cases t
  case cls | ret =>
    rw [canonicalise_zero hc]
    exact ((and_rowMask_eq_rowMatch_iff w _).mpr ⟨hc, hk⟩).symm
  case jp | call | ldI | jpV0 =>
    rw [canonicalise_of_category hc (by decide)]
    exact formatA_fields hc
  case seImm | sneImm | ldImm | addImm | rnd =>
    rw [canonicalise_of_category hc (by decide)]
    exact formatI_fields hc
  case drw =>
    rw [canonicalise_of_category hc (by decide)]
    exact formatR_fields hc
  case skp | sknp | ldVxDt | ldVxK | ldDtVx | ldStVx | addI | ldFont | bcd | store | load =>
    rw [canonicalise_of_category hc (by decide)]
    exact formatI_key hc hk
  case seReg =>
    rw [canonicalise_five hc]
    exact formatR_zero_n hc
  case sneReg =>
    rw [canonicalise_nine hc]
    exact formatR_zero_n hc
  case shr | shl =>
    have hn := fieldN_eq_of_key hk
    rw [canonicalise_eight hc, if_pos (by rw [hn]; decide), ← formatR_zero_y hc, hn]
    rfl
  case ldReg | or | and | xor | addReg | sub | subn =>
    have hn := fieldN_eq_of_key hk
    rw [canonicalise_eight hc, if_neg (by rw [hn]; decide)]
    exact formatR_key hc hn

/-! ### The unknown words (R77) -/

theorem decodeWord_eq_none {w : Word} : decodeWord w = none ↔ decodeTagUnder Config.standard w = none := by
  simp [decodeWord, decodeWordUnder]

/-- A word is unknown when its masked payload is the key of no row of its category. -/
theorem decodeWord_eq_none_iff_key {w : Word} :
    decodeWord w = none ↔
      payload w &&& (entryOf (category w)).keyMask ∉ (entryOf (category w)).rows.map Prod.fst := by
  rw [decodeWord_eq_none, decodeTag_eq_lookup, List.lookup_eq_none_iff]
  simp only [bne_iff_ne, List.mem_map, not_exists, not_and]
  exact forall₂_congr fun _ _ => ne_comm

/-- Outside categories 0, 8, E and F the entry has the one key 0 under the mask 0. -/
theorem key_of_single_category : ∀ c : BitVec 4, c ≠ 0x0#4 → c ≠ 0x8#4 → c ≠ 0xE#4 → c ≠ 0xF#4 →
    (entryOf c).keyMask = 0#12 ∧ 0#12 ∈ (entryOf c).rows.map Prod.fst := by
  decide

/-- The masked payload of categories 0, E and F is a known key when the low byte is. -/
theorem and_low_byte_mem_keys (r : Addr) (keys : List Byte) :
    r &&& 0x0FF#12 ∈ keys.map (packPayload 0#4) ↔ fieldNN r ∈ keys := by
  rw [← payload_eq_packPayload r, packPayload_and_low_byte, fieldNN_packPayload]
  exact List.mem_map_of_injective fun a b h => by simpa using congrArg fieldNN h

/-- That of category 8, when the low nibble is. -/
theorem and_low_nibble_mem_keys (r : Addr) (keys : List Nibble) :
    r &&& 0x00F#12 ∈ keys.map (fun n => packPayload 0#4 (packByte 0#4 n)) ↔ fieldN r ∈ keys := by
  rw [← payload_eq_packPayload r, ← fieldNN_eq_packByte, packPayload_and_low_nibble, fieldN_packPayload]
  exact List.mem_map_of_injective fun a b h => by simpa using congrArg fieldN h

/-- Settles O13: the keys of each sub-dispatch, read off its table, are the known low bytes or low nibbles. -/
theorem unknownOpcodesAreExactlyTheListedWords : Obligations.UnknownOpcodesAreExactlyTheListedWords := by
  intro w
  rw [decodeWord_eq_none_iff_key]
  generalize category w = c
  by_cases h0 : c = 0x0#4
  · subst h0
    refine (not_congr (and_low_byte_mem_keys (payload w) [0xE0#8, 0xEE#8])).trans ?_
    simp
  by_cases h8 : c = 0x8#4
  · subst h8
    have hcompl : ∀ n : Nibble, n ∉ [0x0#4, 0x1#4, 0x2#4, 0x3#4, 0x4#4, 0x5#4, 0x6#4, 0x7#4, 0xE#4] ↔
        n ∈ [0x8#4, 0x9#4, 0xA#4, 0xB#4, 0xC#4, 0xD#4, 0xF#4] := by decide
    refine (not_congr (and_low_nibble_mem_keys (payload w) _)).trans ((hcompl _).trans ?_)
    simp
  by_cases hE : c = 0xE#4
  · subst hE
    refine (not_congr (and_low_byte_mem_keys (payload w) [0x9E#8, 0xA1#8])).trans ?_
    simp
  by_cases hF : c = 0xF#4
  · subst hF
    refine (not_congr (and_low_byte_mem_keys (payload w)
      [0x07#8, 0x0A#8, 0x15#8, 0x18#8, 0x1E#8, 0x29#8, 0x33#8, 0x55#8, 0x65#8])).trans ?_
    simp
  · obtain ⟨hmask, hkey⟩ := key_of_single_category c h0 h8 hE hF
    simp [hmask, hkey, h0, h8, hE, hF]

end Sys2Proof
end

section
/-! PROOFS. Memory and stack (`20_memory.md`, `10_state.md`): ranges, the load of an image, the canonical form, the call stack. -/

namespace Sys2Proof.Machine

/-! ### Ranges (R52) -/

/-- The lowest outside address of a range that starts inside or outside memory, as the statements write it. -/
theorem max_4096_eq_ite (a : Nat) : max a 4096 = if 4096 ≤ a then a else 4096 := by
  rw [Nat.max_comm, Nat.max_def]

/-- Settles O6: inside memory both accesses answer, outside both raise at the same address. -/
theorem rangeAccessRaisesExactlyOutsideMemory : Obligations.RangeAccessRaisesExactlyOutsideMemory := by
  rintro s a _ ns rfl
  split
  case isTrue hin =>
    refine ⟨⟨_, memRead_inside s hin, by simp, fun k hk => ?_⟩, _, memWrite_inside s hin⟩
    rw [List.getElem?_map, List.getElem?_range hk, Option.map_some]
  case isFalse hout =>
    rw [← max_4096_eq_ite]
    exact ⟨memRead_outside s hout, memWrite_outside s hout⟩

/-! ### The load of an image (R62, R253) -/

theorem launch_fits {image : List Byte} (h : image.length ≤ 3584) :
    launch image = .next { State.reset with mem := State.reset.mem.writeBytes 0x200 image } := by
  have hload : loadImage image State.reset = .ok { State.reset with mem := State.reset.mem.writeBytes 0x200 image } :=
    memStore_inside State.reset (a := 0x200) (.inr (by omega))
  rw [launch, hload]

theorem launch_too_long {image : List Byte} (h : ¬ image.length ≤ 3584) : launch image = .refused .imageTooLong := by
  have hload : loadImage image State.reset = .error (.outOfRange (max 0x200 4096)) :=
    memStore_outside State.reset (a := 0x200) (by omega)
  rw [launch, hload]

/-- Settles O3: the load is one range write of the image over the zero memory of reset. -/
theorem launchPlacesTheImageAt0x200 : Obligations.LaunchPlacesTheImageAt0x200 := by
  intro image
  split
  case isTrue h =>
    refine ⟨_, launch_fits h, fun k hk => read_writeBytes_inside _ _ _ hk, fun a ha => ?_, rfl⟩
    exact (read_writeBytes_outside _ _ _ ha).trans (read_reset a)
  case isFalse h => exact launch_too_long h

/-! ### The canonical form (log 15) -/

/-- A canonical memory reads an entry's byte at its address. -/
theorem read_of_mem {m : Memory} (h : m.Pairwise (fun p q => p.1 < q.1)) {c : Host.Cell} (hc : c ∈ m) :
    m.read c.1 = c.2 := by
  induction m with
  | nil => cases hc
  | cons d m ih =>
    obtain ⟨hd, hm⟩ := List.pairwise_cons.mp h
    rw [read_cons]
    rcases List.mem_cons.mp hc with rfl | hc
    · exact if_pos rfl
    · rw [if_neg (hd c hc).ne', ih hm hc]

/-- What a memory reads that an unlisted cell does not is one of its entries. -/
theorem mem_of_read_ne {m : Memory} {a : Nat} (h : m.read a ≠ unlistedByte) : (a, m.read a) ∈ m := by
  induction m with
  | nil => exact absurd rfl h
  | cons d m ih =>
    obtain ⟨k, b⟩ := d
    rw [read_cons] at h ⊢
    split at h
    case isTrue hk => simp [hk]
    case isFalse hk => rw [if_neg hk]; exact List.mem_cons_of_mem _ (ih h)

/-- The entries of a canonical memory are its cells that do not read as an unlisted one. -/
theorem mem_iff_read {m : Memory} (h : m.wf) (c : Host.Cell) :
    c ∈ m ↔ c.1 < 4096 ∧ m.read c.1 = c.2 ∧ c.2 ≠ unlistedByte := by
  refine ⟨fun hc => ⟨(h.2 c hc).2, read_of_mem h.1 hc, (h.2 c hc).1⟩, ?_⟩
  rintro ⟨-, hread, hne⟩
  simpa [hread] using mem_of_read_ne (m := m) (a := c.1) (by rwa [hread])

theorem nodup_of_wf {m : Memory} (h : m.wf) : m.Nodup :=
  h.1.imp fun hlt he => absurd (congrArg Prod.fst he) hlt.ne

/-- Settles O8: memories that read alike have the same entries, and the order of the addresses leaves one list of them. -/
theorem canonicalMemoriesThatReadAlikeAreEqual : Obligations.CanonicalMemoriesThatReadAlikeAreEqual := by
  intro m m' hm hm' hread
  have hmem : ∀ c : Host.Cell, c ∈ m ↔ c ∈ m' := fun c => by
    rw [mem_iff_read hm, mem_iff_read hm']
    exact and_congr_right fun hlt => by rw [hread c.1 (by omega)]
  have hperm : m.Perm m' := (List.perm_ext_iff_of_nodup (nodup_of_wf hm) (nodup_of_wf hm')).mpr hmem
  exact hperm.eq_of_pairwise (fun a b _ _ hab hba => absurd hba hab.asymm) hm.1 hm'.1

/-! ### The call stack (R30) -/

theorem pushAll_room (as : List Addr) : ∀ s : State, s.stack.length + as.length ≤ 16 →
    pushAll s as = .ok { s with stack := s.stack ++ as } := by
  induction as with
  | nil => intro s _; simp [pushAll]
  | cons a as ih =>
    intro s h
    rw [List.length_cons] at h
    rw [pushAll, push_room s a.toNat (by omega)]
    simp only
    rw [ih _ (by simp; omega)]
    simp

theorem popTimes_append (s : State) (as : List Addr) :
    popTimes { s with stack := s.stack ++ as } as.length = .ok (as.reverse, s) := by
  induction as using List.reverseRecOn with
  | nil => simp [popTimes]
  | append_singleton as a ih =>
    have hpop := pop_append { s with stack := s.stack ++ (as ++ [a]) } (rest := s.stack ++ as) (a := a) (by simp)
    rw [List.length_append, List.length_singleton, popTimes, hpop]
    simp [ih]

/-- Settles O7, by induction over the addresses pushed, and from the last of them over those popped. -/
theorem callStackIsLastInFirstOut : Obligations.CallStackIsLastInFirstOut :=
  ⟨fun s as h => ⟨_, pushAll_room as s h, rfl, popTimes_append s as⟩, pop_empty, push_full⟩

end Sys2Proof.Machine
end

section
/-! PROOFS. Calls and returns, and the cycle that runs them (`40_cycle_and_control_flow.md` R100 to R106). -/

namespace Sys2Proof.Machine

/-! ### Call and return (R104, R106) -/

theorem exec_ret (s : State) : exec .ret s = orRaise s.pop fun p => p.2.retire (p.1.toNat + 0) := rfl

theorem exec_call (nnn : Addr) (s : State) :
    exec (.call nnn) s = orRaise (s.push s.pc.toNat) fun t => t.retire nnn.toNat := rfl

/-- `RET` under any configuration, with an entry on the stack (R104). -/
theorem retUnder_next (c : Config) {s : State} {rest : List Addr} {a : Addr} (h : s.stack = rest ++ [a]) :
    retUnder c s = .next { s with stack := rest, pc := BitVec.ofNat 16 (a.toNat + c.retOffset), displayDirty := false } := by
  rw [retUnder, pop_append s h, orRaise_ok, retire_eq]

theorem exec_ret_next {s : State} {rest : List Addr} {a : Addr} (h : s.stack = rest ++ [a]) :
    exec .ret s = .next { s with stack := rest, pc := BitVec.ofNat 16 a.toNat, displayDirty := false } :=
  retUnder_next Config.standard h

theorem exec_ret_empty {s : State} (h : s.stack = []) : exec .ret s = .fault .stackUnderflow := by
  rw [exec_ret, pop_empty s h, orRaise_error]

theorem exec_call_next {s : State} (nnn : Addr) (h : s.stack.length ≠ 16) :
    exec (.call nnn) s = .next
      { s with stack := s.stack ++ [BitVec.ofNat 12 s.pc.toNat], pc := BitVec.ofNat 16 nnn.toNat, displayDirty := false } := by
  rw [exec_call, push_room s _ h, orRaise_ok, retire_eq]

theorem exec_call_full {s : State} (nnn : Addr) (h : s.stack.length = 16) :
    exec (.call nnn) s = .fault .stackOverflow := by
  rw [exec_call, push_full s _ h, orRaise_error]

/-- A twelve-bit address fits the program counter. -/
theorem toNat_pc_ofAddr (a : Addr) : (BitVec.ofNat 16 a.toNat).toNat = a.toNat := by
  rw [BitVec.toNat_ofNat]; omega

/-- So a call placed at a twelve-bit address pushes that address (R106). -/
theorem entry_ofAddr (a : Addr) : BitVec.ofNat 12 (BitVec.ofNat 16 a.toNat).toNat = a := by
  rw [toNat_pc_ofAddr, BitVec.ofNat_toNat, BitVec.setWidth_eq]

/-- Settles O22: the push has room or fails, and the twelve-bit target fits the counter. -/
theorem callPushesItsOwnAddressAndJumps : Obligations.CallPushesItsOwnAddressAndJumps := by
  intro s nnn
  split
  case isTrue h => exact exec_call_full nnn h
  case isFalse h =>
    exact ⟨_, _, exec_call_next nnn h, rfl, BitVec.toNat_ofNat _ _, toNat_pc_ofAddr nnn, rfl⟩

/-- Settles O23: with `RET_OFFSET` = 0 the popped entry is the target. -/
theorem returnLandsOnThePoppedAddress : Obligations.ReturnLandsOnThePoppedAddress :=
  ⟨fun _ _ a h => ⟨_, exec_ret_next h, rfl, toNat_pc_ofAddr a, rfl⟩, fun _ => exec_ret_empty⟩

/-! ### The step of a running core (R100) -/

/-- A step of a running core with nothing listed runs the instruction at `pc` (R100). -/
theorem step_runs {s : State} {i : Instr} (hw : s.wait = none) (hs : s.schedule = []) (hp : s.pc.toNat ≤ 4094)
    (hd : decodeWord (wordOfBytes (s.mem.read s.pc.toNat) (s.mem.read (s.pc.toNat + 1))) = some i) : step s = exec i s := by
  rw [step_idle hs, cycle_runs hw (fetch_inside s hp) hd]

/-- The same where `pc` holds a twelve-bit address. -/
theorem step_runs_at {s : State} {i : Instr} {a : Addr} (hw : s.wait = none) (hs : s.schedule = [])
    (hpc : s.pc = BitVec.ofNat 16 a.toNat) (ha : a.toNat ≤ 4094)
    (hd : decodeWord (wordOfBytes (s.mem.read a.toNat) (s.mem.read (a.toNat + 1))) = some i) : step s = exec i s := by
  have hpa : s.pc.toNat = a.toNat := by rw [hpc, toNat_pc_ofAddr]
  exact step_runs hw hs (by rwa [hpa]) (by rwa [hpa])

/-- Settles O15: the fetch inside memory gives the word, whatever the list of events holds. -/
theorem aStepRunsTheDecodedInstruction : Obligations.AStepRunsTheDecodedInstruction := by
  intro s i hw hp hd
  refine ⟨fun hs => step_runs hw hs hp hd, fun rest hs => ?_⟩
  rw [step_event hs]
  exact cycle_runs (s := { s with schedule := rest }) hw (fetch_inside _ hp) hd

/-- A cycle's failure is the step's, whether no event is listed or a cycle is listed first (log 1). -/
theorem cycleFailsWith_of_cycle {s : State} {f : Fault} (h : ∀ evs, cycle { s with schedule := evs } = .fault f) :
    CycleFailsWith s f := by
  rintro rest (hs | hs)
  · rw [step_idle hs]; exact h s.schedule
  · rw [step_event hs]; exact h rest

/-- Settles O16: the fetch leaves memory from 4095 on; else its word has no handler. -/
theorem cycleRaisesFetchThenDecodeFailures : Obligations.CycleRaisesFetchThenDecodeFailures := by
  intro s hw
  split
  case isTrue hp =>
    have hbad : (if s.pc.toNat = 4095 then 4096 else s.pc.toNat) = max s.pc.toNat 4096 := by split <;> omega
    rw [hbad]
    exact cycleFailsWith_of_cycle fun evs => cycle_fetch_fault (s := { s with schedule := evs }) hw (fetch_outside _ hp)
  case isFalse hp =>
    intro w hd
    exact cycleFailsWith_of_cycle fun evs =>
      cycle_unknown (s := { s with schedule := evs }) hw (fetch_inside _ (by simpa using hp)) hd

/-- Settles O24: jump, call and return, each one step; the call pushes A, and the return pops it. -/
theorem jumpCallReturnRestoresTheCounter : Obligations.JumpCallReturnRestoresTheCounter := by
  intro s a b hw hs hroom hp ha hb hjp hcall hret
  obtain ⟨w, hf, hd⟩ := fetchedInstr_eq_some.mp hjp
  have hjump : step s = .next { s with pc := BitVec.ofNat 16 a.toNat, displayDirty := false } := by
    rw [step_idle hs, cycle_runs hw hf hd, exec_jp, retire_eq]
  have hcalled : step { s with pc := BitVec.ofNat 16 a.toNat, displayDirty := false } =
      .next { s with stack := s.stack ++ [a], pc := BitVec.ofNat 16 b.toNat, displayDirty := false } := by
    refine Eq.trans (step_runs_at hw hs rfl ha hcall) (Eq.trans (exec_call_next b hroom.ne) ?_)
    simp only [entry_ofAddr]
  have hback : step { s with stack := s.stack ++ [a], pc := BitVec.ofNat 16 b.toNat, displayDirty := false } =
      .next { s with pc := BitVec.ofNat 16 a.toNat, displayDirty := false } :=
    Eq.trans (step_runs_at hw hs rfl hb hret) (exec_ret_next rfl)
  have hrun : core.run 3 s = .next { s with pc := BitVec.ofNat 16 a.toNat, displayDirty := false } := by
    simp only [Host.Core.run, core, hjump, hcalled, hback]
  exact ⟨_, hrun, toNat_pc_ofAddr a, rfl⟩

end Sys2Proof.Machine
end

section
/-! PROOFS. Arithmetic with a flag, shifts and the random byte (`41_load_alu.md` R138 to R143). -/

namespace Sys2Proof.Machine

/-! ### Result and flag in either order (R131) -/

/-- Result, then flag: `VF` ends as the flag, and the destination, if another, as the result. -/
theorem writeResultThenFlag_retire (s : State) (x : RegIdx) (n : Int) (f : Byte) :
    ∃ t, (s.writeResultThenFlag x n f).retire s.nextSequential = .next t ∧ (x ≠ flagReg → t.reg x = BitVec.ofInt 8 n) ∧
      t.reg flagReg = f ∧ (∀ r, r ≠ x → r ≠ flagReg → t.reg r = s.reg r) ∧ RegsAdvance s t := by
  have hframe : s.writeResultThenFlag x n f = { s with v := (s.writeResultThenFlag x n f).v } := rfl
  obtain ⟨t, ht, hregs, hadv⟩ := retire_regsAdvance hframe
  refine ⟨t, ht, fun hx => ?_, ?_, fun r hrx hrf => ?_, hadv⟩
  · rw [hregs, reg_writeResultThenFlag, if_neg hx, if_pos rfl]
  · rw [hregs, reg_writeResultThenFlag, if_pos rfl]
  · rw [hregs, reg_writeResultThenFlag, if_neg hrf, if_neg hrx]

/-- Flag, then result: the destination ends as the result, and `VF`, if another, as the flag. -/
theorem putFlagThenReg_retire (s : State) (x : RegIdx) (f b : Byte) :
    ∃ t, ((s.putReg flagReg f).putReg x b).retire s.nextSequential = .next t ∧ t.reg x = b ∧
      (x ≠ flagReg → t.reg flagReg = f) ∧ (∀ r, r ≠ x → r ≠ flagReg → t.reg r = s.reg r) ∧ RegsAdvance s t := by
  have hframe : (s.putReg flagReg f).putReg x b = { s with v := ((s.putReg flagReg f).putReg x b).v } := rfl
  obtain ⟨t, ht, hregs, hadv⟩ := retire_regsAdvance hframe
  refine ⟨t, ht, ?_, fun hx => ?_, fun r hrx hrf => ?_, hadv⟩
  · rw [hregs, reg_putReg_same]
  · rw [hregs, reg_putReg_ne _ _ hx.symm, reg_putReg_same]
  · rw [hregs, reg_putReg_ne _ _ hrx, reg_putReg_ne _ _ hrf]

/-! ### Addition and subtraction (R138, R139, R141) -/

theorem exec_addReg (x y : RegIdx) (s : State) :
    exec (.addReg x y) s = (s.writeResultThenFlag x ((s.reg x).toNat + (s.reg y).toNat)
      (carryFlag ((s.reg x).toNat + (s.reg y).toNat))).retire s.nextSequential := rfl

theorem exec_sub (x y : RegIdx) (s : State) : exec (.sub x y) s = subtractInto x (s.reg x) (s.reg y) s := rfl

theorem carryFlag_sum (a b : Byte) :
    carryFlag ((a.toNat : Int) + b.toNat) = if 255 < a.toNat + b.toNat then 1#8 else 0#8 := by
  have hiff : 255 < (a.toNat : Int) + b.toNat ↔ 255 < a.toNat + b.toNat := by omega
  simp only [carryFlag, flagByte, decide_eq_true_eq, hiff]

theorem noBorrowFlag_difference (a b : Byte) :
    noBorrowFlag ((a.toNat : Int) - b.toNat) = if a.toNat < b.toNat then 0#8 else 1#8 := by
  have hiff : 0 ≤ (a.toNat : Int) - b.toNat ↔ ¬ a.toNat < b.toNat := by omega
  simp only [noBorrowFlag, flagByte, decide_eq_true_eq, hiff, ite_not]

/-- Settles O28: the exact sum is narrowed into the destination, and its carry written after it. -/
theorem addRegistersWritesSumAndCarry : Obligations.AddRegistersWritesSumAndCarry := by
  intro s x y
  rw [exec_addReg]
  obtain ⟨t, ht, hx, hflag, hregs, hadv⟩ := writeResultThenFlag_retire s x ((s.reg x).toNat + (s.reg y).toNat)
    (carryFlag ((s.reg x).toNat + (s.reg y).toNat))
  exact ⟨t, ht, fun h => by rw [hx h, toNat_byte_ofInt_add], by rw [hflag, carryFlag_sum], hregs, hadv⟩

/-- The shared body of the two subtracts: difference modulo 256, then the flag. -/
theorem subtractInto_next (s : State) (x : RegIdx) (a b : Byte) :
    ∃ t, subtractInto x a b s = .next t ∧ (x ≠ flagReg → ((t.reg x).toNat : Int) = (a.toNat - b.toNat : Int) % 256) ∧
      t.reg flagReg = (if a.toNat < b.toNat then 0#8 else 1#8) ∧
      (∀ r, r ≠ x → r ≠ flagReg → t.reg r = s.reg r) ∧ RegsAdvance s t := by
  obtain ⟨t, ht, hx, hflag, hregs, hadv⟩ :=
    writeResultThenFlag_retire s x ((a.toNat : Int) - b.toNat) (noBorrowFlag ((a.toNat : Int) - b.toNat))
  exact ⟨t, ht, fun h => by rw [hx h, toNat_byte_ofInt], by rw [hflag, noBorrowFlag_difference], hregs, hadv⟩

/-- Settles O29: the shared body with `V[X]` and `V[Y]` as they were. -/
theorem subtractWritesDifferenceAndNoBorrow : Obligations.SubtractWritesDifferenceAndNoBorrow := by
  intro s x y
  rw [exec_sub]
  exact subtractInto_next s x (s.reg x) (s.reg y)

theorem subnUnder_forward {c : Config} (h : c.subnReversed = false) (x y : RegIdx) (s : State) :
    subnUnder c x y s = subtractInto x (s.reg x) (s.reg y) s := by
  rw [subnUnder, h, if_neg Bool.false_ne_true]

theorem subnUnder_reversed {c : Config} (h : c.subnReversed = true) (x y : RegIdx) (s : State) :
    subnUnder c x y s = subtractInto x (s.reg y) (s.reg x) s := by
  rw [subnUnder, h, if_pos rfl]

theorem exec_subn (x y : RegIdx) (s : State) : exec (.subn x y) s = exec (.sub x y) s :=
  subnUnder_forward standard_subnReversed x y s

/-- Settles O30: either direction is the subtraction both subtracts share. -/
theorem secondSubtractTakesTheConfiguredDirection : Obligations.SecondSubtractTakesTheConfiguredDirection := by
  refine ⟨fun s x y => ?_, fun c s x y => ?_⟩
  · obtain ⟨t, ht, -⟩ := subtractInto_next s x (s.reg x) (s.reg y)
    exact ⟨t, (exec_subn x y s).trans ht, ht⟩
  · cases h : c.subnReversed with
    | false =>
      obtain ⟨t, ht, -⟩ := subtractInto_next s x (s.reg x) (s.reg y)
      exact ⟨t, (subnUnder_forward h x y s).trans ht, fun _ => ht, (nomatch ·)⟩
    | true =>
      obtain ⟨t, ht, hspec⟩ := subtractInto_next s x (s.reg y) (s.reg x)
      exact ⟨t, (subnUnder_reversed h x y s).trans ht, (nomatch ·), fun _ => hspec⟩

/-! ### Shifts (R140, R142) -/

theorem exec_shr (x : RegIdx) (s : State) :
    exec (.shr x) s = ((s.putReg flagReg (lowBitFlag (s.reg x))).putReg x
      ((s.putReg flagReg (lowBitFlag (s.reg x))).reg x >>> 1)).retire s.nextSequential := rfl

theorem exec_shl (x : RegIdx) (s : State) :
    exec (.shl x) s = ((s.putReg flagReg (highBitFlag (s.reg x))).putReg x
      (BitVec.ofInt 8 (((s.putReg flagReg (highBitFlag (s.reg x))).reg x).toNat * 2))).retire s.nextSequential := rfl

theorem toNat_lowBitFlag (b : Byte) : (lowBitFlag b).toNat = b.toNat % 2 := by
  revert b; decide

theorem toNat_highBitFlag (b : Byte) : (highBitFlag b).toNat = b.toNat / 128 := by
  revert b; decide

theorem lowBitFlag_shifted (b : Byte) : lowBitFlag b >>> 1 = 0#8 := by
  revert b; decide

/-- A byte doubled loses bit 7. -/
theorem toNat_byte_double (b : Byte) : (BitVec.ofInt 8 ((b.toNat : Int) * 2)).toNat = b.toNat * 2 % 256 := by
  have h := toNat_byte_ofInt ((b.toNat : Int) * 2)
  omega

/-- Settles O31: with X = 15 the shift sees the flag just written, else the register as it was. -/
theorem shiftsMoveOneBitOutIntoTheFlag : Obligations.ShiftsMoveOneBitOutIntoTheFlag := by
  intro s x
  constructor
  · rw [exec_shr]
    obtain ⟨t, ht, hx, hflag, hregs, hadv⟩ := putFlagThenReg_retire s x (lowBitFlag (s.reg x))
      ((s.putReg flagReg (lowBitFlag (s.reg x))).reg x >>> 1)
    refine ⟨t, ht, fun hne => ⟨?_, ?_⟩, fun he => ?_, hregs, hadv⟩
    · rw [hx, reg_putReg_ne _ _ hne, BitVec.toNat_ushiftRight, Nat.shiftRight_one]
    · rw [hflag hne, toNat_lowBitFlag]
    · subst he
      rw [hx, reg_putReg_same, lowBitFlag_shifted]
  · rw [exec_shl]
    obtain ⟨t, ht, hx, hflag, hregs, hadv⟩ := putFlagThenReg_retire s x (highBitFlag (s.reg x))
      (BitVec.ofInt 8 (((s.putReg flagReg (highBitFlag (s.reg x))).reg x).toNat * 2))
    refine ⟨t, ht, fun hne => ⟨?_, ?_⟩, fun he => ?_, hregs, hadv⟩
    · rw [hx, reg_putReg_ne _ _ hne, toNat_byte_double]
    · rw [hflag hne, toNat_highBitFlag]
    · subst he
      rw [hx, reg_putReg_same, toNat_byte_double, toNat_highBitFlag]
      omega

/-! ### The random byte (R143) -/

theorem exec_rnd (x : RegIdx) (nn : Byte) (s : State) :
    exec (.rnd x nn) s = (s.drawn.putReg x (Config.randomByte s.randomDraws &&& nn)).retire s.drawn.nextSequential := rfl

/-- Settles O32: a masked byte put in the destination of the state that has taken one byte of the source. -/
theorem randomWritesAMaskedByteOfTheSource : Obligations.RandomWritesAMaskedByteOfTheSource := by
  intro s x nn
  rw [exec_rnd]
  obtain ⟨t, ht, hx, hregs, hadv⟩ := putReg_retire_regsAdvance s.drawn x (Config.randomByte s.randomDraws &&& nn)
  exact ⟨t, ht, hx, fun k hk => by rw [hx, BitVec.getLsbD_and, hk, Bool.and_false], hregs, hadv⟩

end Sys2Proof.Machine
end

section
/-! PROOFS. Keys and the external events (`43_input_timers.md`, `60_exceptions.md` R230 to R235). -/

namespace Sys2Proof.Machine

/-! ### The key query (R37, R180, R181) -/

theorem sampled_code {s : State} {b : Byte} (h : b.toNat ≤ 15) : s.sampled b = { s with keySamples := s.keySamples + 1 } :=
  if_pos h

theorem sampled_above {s : State} {b : Byte} (h : 15 < b.toNat) : s.sampled b = s :=
  if_neg (Nat.not_le.mpr h)

theorem keyPressedUnder_code (c : Config) (s : State) {b : Byte} {k : KeyCode} (h : b.toNat = k.toNat) :
    s.keyPressedUnder c b = Config.keyLevel s.keySamples k := by
  have hk : b.extractLsb' 0 4 = k := by
    apply BitVec.eq_of_toNat_eq
    rw [BitVec.extractLsb'_toNat, h]
    omega
  rw [State.keyPressedUnder, if_pos (by omega), hk]

theorem keyPressedUnder_above (c : Config) (s : State) {b : Byte} (h : 15 < b.toNat) : s.keyPressedUnder c b = c.keyOor :=
  if_neg (Nat.not_le.mpr h)

/-- Above 15 the source is not asked, and the skips take `KEY_OOR` for its answer. -/
theorem skpUnder_above (c : Config) {s : State} {x : RegIdx} (h : 15 < (s.reg x).toNat) :
    skpUnder c x s = .next { s with pc := if c.keyOor then s.pc + 4#16 else s.pc + 2#16, displayDirty := false } := by
  rw [skpUnder, sampled_above h, keyPressedUnder_above c s h, retire_eq, ofNat_nextSkip]

theorem sknpUnder_above (c : Config) {s : State} {x : RegIdx} (h : 15 < (s.reg x).toNat) :
    sknpUnder c x s = .next { s with pc := if !c.keyOor then s.pc + 4#16 else s.pc + 2#16, displayDirty := false } := by
  rw [sknpUnder, sampled_above h, keyPressedUnder_above c s h, retire_eq, ofNat_nextSkip]

/-- For a code it is asked once. -/
theorem skpUnder_code (c : Config) {s : State} {x : RegIdx} {k : KeyCode} (h : (s.reg x).toNat = k.toNat) :
    skpUnder c x s = .next
      { s with pc := if Config.keyLevel s.keySamples k then s.pc + 4#16 else s.pc + 2#16, displayDirty := false,
               keySamples := s.keySamples + 1 } := by
  rw [skpUnder, sampled_code (by omega), keyPressedUnder_code c s h, retire_eq, ofNat_nextSkip]

theorem sknpUnder_code (c : Config) {s : State} {x : RegIdx} {k : KeyCode} (h : (s.reg x).toNat = k.toNat) :
    sknpUnder c x s = .next
      { s with pc := if !Config.keyLevel s.keySamples k then s.pc + 4#16 else s.pc + 2#16, displayDirty := false,
               keySamples := s.keySamples + 1 } := by
  rw [sknpUnder, sampled_code (by omega), keyPressedUnder_code c s h, retire_eq, ofNat_nextSkip]

/-- Settles O37: a code is sampled once, a byte above 15 not at all, and `KEY_OOR` is false. -/
theorem keySkipsAskTheInputSource : Obligations.KeySkipsAskTheInputSource := by
  refine fun s x => ⟨fun k hk => ⟨⟨_, skpUnder_code _ hk, rfl⟩, ⟨_, sknpUnder_code _ hk, ?_⟩⟩, fun habove => ?_⟩
  · cases Config.keyLevel s.keySamples k <;> rfl
  · exact ⟨⟨_, skpUnder_above _ habove, rfl⟩, ⟨_, sknpUnder_above _ habove, rfl⟩⟩

/-! ### Waiting for a key (R184, R185) -/

theorem exec_ldVxK (x : RegIdx) (s : State) :
    exec (.ldVxK x) s = .next { s with wait := some x, displayDirty := false } := rfl

/-- Settles O39: the instruction ends without retiring, and a suspended cycle does nothing. -/
theorem waitForKeySuspendsTheCore : Obligations.WaitForKeySuspendsTheCore := by
  refine ⟨fun s x => ⟨_, exec_ldVxK x s, rfl, rfl⟩, fun s x hw => ⟨fun hs => ?_, fun rest hs => ?_⟩⟩
  · rw [step_idle hs, cycle_suspended hw]
  · rw [step_event hs]
    exact cycle_suspended (s := { s with schedule := rest }) hw

/-- Settles O40: a press puts the key's code in the waiting register, and is ignored while the core runs. -/
theorem keyEventCompletesTheWait : Obligations.KeyEventCompletesTheWait := by
  intro s k rest hs
  have hstep : step s = .next (keyEvent k { s with schedule := rest }) := step_event hs
  refine ⟨fun x hw => ?_, fun hw => ?_⟩
  · rw [keyEvent_suspended (s := { s with schedule := rest }) k hw] at hstep
    refine ⟨_, hstep, ?_, fun r hr => reg_putReg_ne _ _ hr, rfl⟩
    exact (congrArg BitVec.toNat (reg_putReg_same _ x _)).trans (BitVec.toNat_setWidth_of_le (by decide))
  · rw [hstep, keyEvent_running (s := { s with schedule := rest }) k hw]

/-! ### Ticks (R232, R233) -/

theorem toNat_tickedDown (b : Byte) : (tickedDown b).toNat = b.toNat - 1 := by
  rw [tickedDown]
  split
  case isTrue h => rw [h]; rfl
  case isFalse h => bv_omega

/-- Settles O41: each tick is its timer one lower, with a floor. -/
theorem ticksCountDownToZero : Obligations.TicksCountDownToZero :=
  fun s _ => ⟨fun hs => ⟨_, step_event hs, toNat_tickedDown s.dt, rfl⟩,
    fun hs => ⟨_, step_event hs, toNat_tickedDown s.st, rfl⟩⟩

/-! ### Reset (R250, R35) -/

/-- Settles O2: the reset event rebuilds every cell of the core. -/
theorem resetEventGivesTheResetState : Obligations.ResetEventGivesTheResetState := by
  intro s rest hs
  have hstep : step s = .next (resetCore { s with schedule := rest }) := step_event hs
  exact ⟨_, hstep, reg_reset, rfl, rfl, read_reset, rfl, rfl, rfl, pixel_cleared, rfl, rfl⟩

/-- A core that does not wait keeps the invariant on the wait. -/
theorem keyWaitHolds_of_running {s : State} (h : s.wait = none) : KeyWaitHolds s := by
  intro x hx
  rw [h] at hx
  cases hx

theorem stackBounded_reset : StackBounded State.reset := by decide

theorem addressBounded_reset : AddressBounded State.reset := by decide

theorem pcBounded_reset : PcBounded State.reset := by decide

/-- Settles O52: memory and stack are empty, `I` is 0, `pc` is `0x200`, and the core does not wait. -/
theorem resetMeetsTheInvariants : Obligations.ResetMeetsTheInvariants :=
  ⟨wf_reset, stackBounded_reset, addressBounded_reset, pcBounded_reset, keyWaitHolds_of_running rfl, rfl⟩

end Sys2Proof.Machine
end

section
/-! PROOFS. The address register and the runs at it (`44_address_memory.md`), and the sprite at it (`42_display.md` R161). -/

namespace Sys2Proof.Machine

/-! ### The address register (R200, R201) -/

/-- Under every configuration: the constant, kept in `I_WIDTH` bits. -/
theorem ldIUnder_next (c : Config) (s : State) (nnn : Addr) (h : c.iWidth ≤ 16) :
    ∃ t, ldIUnder c nnn s = .next t ∧ t.i.toNat = nnn.toNat % 2 ^ c.iWidth ∧
      t = { s with i := t.i, pc := s.pc + 2#16, displayDirty := false } := by
  refine ⟨_, retire_eq _ _, toNat_writeIUnder c s nnn.toNat h, ?_⟩
  rw [ofNat_nextSequential]
  rfl

/-- Under every configuration: the sum, kept in `I_WIDTH` bits. -/
theorem addIUnder_next (c : Config) (s : State) (x : RegIdx) (h : c.iWidth ≤ 16) :
    ∃ t, addIUnder c x s = .next t ∧ t.i.toNat = (s.i.toNat + (s.reg x).toNat) % 2 ^ c.iWidth ∧
      t = { s with i := t.i, pc := s.pc + 2#16, displayDirty := false } := by
  refine ⟨_, retire_eq _ _, ?_, ?_⟩
  · exact_mod_cast toNat_writeIUnder c s (s.i.toNat + (s.reg x).toNat) h
  · rw [ofNat_nextSequential]
    rfl

/-- Settles O42: twelve bits keep every constant. -/
theorem loadAddressSetsI : Obligations.LoadAddressSetsI := by
  intro s nnn
  obtain ⟨t, ht, hi, hframe⟩ := ldIUnder_next Config.standard s nnn (by decide)
  exact ⟨t, ht, by rw [hi]; exact Nat.mod_eq_of_lt nnn.isLt, hframe⟩

/-- Settles O43: at the default width the sum is kept modulo 4096. -/
theorem addToAddressWrapsAtTwelveBits : Obligations.AddToAddressWrapsAtTwelveBits := by
  intro s x
  obtain ⟨t, ht, hi, hframe⟩ := addIUnder_next Config.standard s x (by decide)
  exact ⟨t, ht, hi, by rw [hframe]⟩

/-- Without a font table the instruction fails with its own word (R202, R224). -/
theorem ldFontUnder_fault {c : Config} (h : c.hasFont = false) (x : RegIdx) (s : State) :
    ldFontUnder c x s = .fault (.unimplemented (encode (.ldFont x))) := by
  rw [ldFontUnder, h, if_neg Bool.false_ne_true, raise]

theorem toNat_encode_ldFont (x : RegIdx) : (encode (.ldFont x)).toNat = 0xF029 + 256 * x.toNat := by
  revert x; decide

/-- Settles O44: the word reported is the instruction's encoding, which decodes to it. -/
theorem fontAddressAlwaysRaisesUnimplemented : Obligations.FontAddressAlwaysRaisesUnimplemented :=
  fun s x => ⟨_, ldFontUnder_fault standard_hasFont x s, toNat_encode_ldFont x, decodeWord_encode _⟩

/-! ### The run of registers stored (R204) -/

/-- The lowest outside address of a range at `I`, as the statements write it. -/
theorem max_base_4096 (s : State) : max s.base 4096 = if s.base ≤ 4095 then 4096 else s.base := by
  split <;> omega

theorem exec_store (x : RegIdx) (s : State) :
    exec (.store x) s = orRaise (s.memStore s.base (s.regsUpTo x)) fun t => t.retire s.nextSequential := rfl

theorem exec_store_inside {s : State} {x : RegIdx} (h : ¬ 4095 < s.base + x.toNat) :
    exec (.store x) s = .next
      { s with mem := s.mem.writeBytes s.base (s.regsUpTo x), pc := s.pc + 2#16, displayDirty := false } := by
  rw [exec_store, memStore_inside s (.inr (by rw [regsUpTo_length]; omega)), orRaise_ok, retire_eq, ofNat_nextSequential]

theorem exec_store_outside {s : State} {x : RegIdx} (h : 4095 < s.base + x.toNat) :
    exec (.store x) s = .fault (.outOfRange (max s.base 4096)) := by
  rw [exec_store, memStore_outside s (by rw [regsUpTo_length]; omega), orRaise_error]

/-- Settles O46: one range write of the run, which fails exactly where its last cell is outside. -/
theorem storeRegistersWritesTheRunAtI : Obligations.StoreRegistersWritesTheRunAtI := by
  intro s x
  split
  case isTrue h => rw [exec_store_outside h, max_base_4096]
  case isFalse h =>
    refine ⟨_, exec_store_inside h, fun r hr => ?_, fun a ha => ?_, rfl⟩
    · rw [read_writeBytes, if_pos (Nat.le_add_right _ _), Nat.add_sub_cancel_left, regsUpTo_getElem? s x r hr,
        Option.getD_some]
    · exact read_writeBytes_outside _ _ _ (by rw [regsUpTo_length]; omega)

/-! ### The run of registers loaded (R205) -/

theorem exec_load (x : RegIdx) (s : State) :
    exec (.load x) s = orRaise (s.memRead s.base (x.toNat + 1)) fun bs => (s.loadRegs 0 bs).retire s.nextSequential := rfl

/-- Loading a run of registers touches the register file alone. -/
theorem loadRegs_frame (bs : List Byte) : ∀ (s : State) (k : Nat), s.loadRegs k bs = { s with v := (s.loadRegs k bs).v } := by
  induction bs with
  | nil => intro s k; rfl
  | cons b bs ih => intro s k; exact ih (s.putReg (BitVec.ofNat 4 k) b) (k + 1)

theorem exec_load_inside {s : State} {x : RegIdx} (h : ¬ 4095 < s.base + x.toNat) :
    ∃ t, exec (.load x) s = .next t ∧
      (∀ r : RegIdx, t.reg r = if r.toNat ≤ x.toNat then s.mem.read (s.base + r.toNat) else s.reg r) ∧ RegsAdvance s t := by
  rw [exec_load, memRead_inside s (.inr (by omega)), orRaise_ok]
  obtain ⟨t, ht, hregs, hadv⟩ := retire_regsAdvance (loadRegs_frame
    ((List.range (x.toNat + 1)).map fun k => s.mem.read (s.base + k)) s 0)
  refine ⟨t, ht, fun r => ?_, hadv⟩
  rw [hregs, reg_loadRegs _ s 0 (by simp; omega), if_pos (Nat.zero_le _), Nat.sub_zero, List.getElem?_map]
  split
  case isTrue hr => rw [List.getElem?_range (by omega), Option.map_some, Option.getD_some]
  case isFalse hr => rw [List.getElem?_eq_none (by simp; omega), Option.map_none, Option.getD_none]

theorem exec_load_outside {s : State} {x : RegIdx} (h : 4095 < s.base + x.toNat) :
    exec (.load x) s = .fault (.outOfRange (max s.base 4096)) := by
  rw [exec_load, memRead_outside s (by omega), orRaise_error]

/-- Settles O47: one range read into the run, which fails exactly where its last cell is outside. -/
theorem loadRegistersReadsTheRunAtI : Obligations.LoadRegistersReadsTheRunAtI := by
  intro s x
  split
  case isTrue h => rw [exec_load_outside h, max_base_4096]
  case isFalse h => exact exec_load_inside h

/-! ### The sprite at the address register (R161) -/

theorem exec_drw (x y : RegIdx) (n : Nibble) (s : State) :
    exec (.drw x y n) s = orRaise (s.memRead s.base n.toNat) fun bs =>
      State.retireDrawn (State.putReg { s with fb := (drawSprite s.fb bs (s.reg x).toNat (s.reg y).toNat).1 } flagReg
        (collisionFlag (drawSprite s.fb bs (s.reg x).toNat (s.reg y).toNat).2)) s.nextSequential := rfl

/-- A nibble is 0 as a number when it is 0. -/
theorem nibble_toNat_eq_zero (n : Nibble) : n.toNat = 0 ↔ n = 0#4 := by
  rw [← BitVec.toNat_inj]; rfl

theorem exec_drw_outside {s : State} (x y : RegIdx) {n : Nibble} (h : ¬ (n.toNat = 0 ∨ s.base + n.toNat ≤ 4096)) :
    exec (.drw x y n) s = .fault (.outOfRange (max s.base 4096)) := by
  rw [exec_drw, memRead_outside s h, orRaise_error]

/-- Settles O36: sprite and coordinates are read first, then picture and flag are written. -/
theorem drawCompositesTheSpriteAtI : Obligations.DrawCompositesTheSpriteAtI := by
  intro s x y n
  split
  case isTrue h =>
    rw [← nibble_toNat_eq_zero] at h
    rw [exec_drw, memRead_inside s h, orRaise_ok, retireDrawn_eq, ofNat_nextSequential]
    refine ⟨_, _, rfl, by simp, fun k hk => ?_, rfl, reg_putReg_same _ _ _, fun r hr => reg_putReg_ne _ _ hr, rfl⟩
    rw [List.getElem?_map, List.getElem?_range hk, Option.map_some]
  case isFalse h =>
    rw [← nibble_toNat_eq_zero] at h
    rw [exec_drw_outside x y h, max_base_4096]

end Sys2Proof.Machine
end

section
/-! PROOFS. Frames over the whole instruction set: the cells each instruction may write (`10_state.md` R23 to R33). -/

namespace Sys2Proof.Machine

/-! ### The cells an instruction may write -/

/-- `s` with the cells the instruction may write as they are in `t`, and `display_dirty` as the completed cycle leaves it
(R167; log 5). -/
def execFrame (i : Instr) (s t : State) : State :=
  match i with
  | .cls => { s with fb := t.fb, pc := t.pc, displayDirty := true }
  | .drw _ _ _ => { s with fb := t.fb, v := t.v, pc := t.pc, displayDirty := true }
  | .ret | .call _ => { s with stack := t.stack, pc := t.pc, displayDirty := false }
  | .jp _ | .jpV0 _ | .seImm _ _ | .sneImm _ _ | .seReg _ _ | .sneReg _ _ => { s with pc := t.pc, displayDirty := false }
  | .skp _ | .sknp _ => { s with pc := t.pc, displayDirty := false, keySamples := t.keySamples }
  | .ldImm _ _ | .addImm _ _ | .ldReg _ _ | .or _ _ | .and _ _ | .xor _ _ | .addReg _ _ | .sub _ _ | .shr _ | .subn _ _
  | .shl _ | .ldVxDt _ | .load _ => { s with v := t.v, pc := t.pc, displayDirty := false }
  | .rnd _ _ => { s with v := t.v, pc := t.pc, displayDirty := false, randomDraws := t.randomDraws }
  | .ldVxK _ => { s with wait := t.wait, displayDirty := false }
  | .ldDtVx _ => { s with dt := t.dt, pc := t.pc, displayDirty := false }
  | .ldStVx _ => { s with st := t.st, pc := t.pc, displayDirty := false }
  | .ldI _ | .addI _ => { s with i := t.i, pc := t.pc, displayDirty := false }
  | .bcd _ | .store _ => { s with mem := t.mem, pc := t.pc, displayDirty := false }
  | .ldFont _ => { s with displayDirty := false }

/-- `FX29` answers no next state (R202). -/
theorem exec_ldFont_ne_next (x : RegIdx) (s t : State) : exec (.ldFont x) s ≠ .next t := nofun

/-- An instruction that completes writes no other cell. -/
theorem exec_frame {i : Instr} {s t : State} (h : exec i s = .next t) : t = execFrame i s t := by
  cases i
  case ret =>
    obtain ⟨⟨a, u⟩, hpop, hretire⟩ := orRaise_eq_next.mp h
    obtain ⟨-, hu⟩ := pop_ok hpop
    rw [retire_eq_next.mp hretire, hu]
    rfl
  case call nnn =>
    obtain ⟨u, hpush, hretire⟩ := orRaise_eq_next.mp h
    obtain ⟨-, rfl⟩ := push_ok hpush
    rw [retire_eq_next.mp hretire]
    rfl
  case drw x y n =>
    obtain ⟨bs, -, hretire⟩ := orRaise_eq_next.mp h
    rw [retireDrawn_eq_next.mp hretire]
    rfl
  case bcd x =>
    obtain ⟨u, hstore, hretire⟩ := orRaise_eq_next.mp h
    obtain ⟨-, rfl⟩ := memWrite_ok hstore
    rw [retire_eq_next.mp hretire]
    rfl
  case store x =>
    obtain ⟨u, hstore, hretire⟩ := orRaise_eq_next.mp h
    obtain ⟨-, rfl⟩ := memStore_ok hstore
    rw [retire_eq_next.mp hretire]
    rfl
  case load x =>
    obtain ⟨bs, -, hretire⟩ := orRaise_eq_next.mp h
    rw [retire_eq_next.mp hretire, loadRegs_frame]
    rfl
  case skp x | sknp x =>
    rw [retire_eq_next.mp h]
    simp [execFrame]
  case subn x y =>
    rw [exec_subn] at h
    rw [retire_eq_next.mp h]
    rfl
  case ldFont x => exact absurd h (exec_ldFont_ne_next x s t)
  case cls | ldVxK x =>
    cases h; rfl
  case jp | jpV0 | seImm | sneImm | seReg | sneReg | ldImm | addImm | ldReg | or | and | xor | addReg | sub | shr | shl
      | ldVxDt | rnd | ldDtVx | ldStVx | ldI | addI =>
    rw [retire_eq_next.mp h]
    rfl

/-- Settles O50: each clause reads one cell of the frame. -/
theorem specialCellsChangeOnlyByTheirInstructions : Obligations.SpecialCellsChangeOnlyByTheirInstructions := by
  intro i s t h
  rw [exec_frame h]
  cases i <;> simp [execFrame]

/-- An instruction that is no store leaves all of memory alone. -/
theorem exec_mem {i : Instr} {s t : State} (h : exec i s = .next t) (hbcd : ∀ x, i ≠ .bcd x)
    (hstore : ∀ x, i ≠ .store x) : t.mem = s.mem := by
  rw [exec_frame h]
  cases i
  case bcd x => exact absurd rfl (hbcd x)
  case store x => exact absurd rfl (hstore x)
  all_goals rfl

/-- Settles O51: the two stores write inside their ranges, and no other instruction writes memory. -/
theorem memoryChangesOnlyWhereAStoreWrites : Obligations.MemoryChangesOnlyWhereAStoreWrites := by
  intro i s t h a hbcd hstore
  by_cases hb : ∃ x, i = .bcd x
  · obtain ⟨x, rfl⟩ := hb
    by_cases hin : s.base ≤ 4093
    · obtain ⟨u, hu, -, hothers, -⟩ := exec_bcd_inside x hin
      cases h.symm.trans hu
      exact hothers a (hbcd x rfl)
    · rw [exec_bcd_outside x (by omega)] at h
      cases h
  by_cases hs : ∃ x, i = .store x
  · obtain ⟨x, rfl⟩ := hs
    by_cases hin : 4095 < s.base + x.toNat
    · rw [exec_store_outside hin] at h
      cases h
    · cases h.symm.trans (exec_store_inside hin)
      have hout := hstore x rfl
      exact read_writeBytes_outside _ _ _ (by rw [regsUpTo_length]; omega)
  · rw [exec_mem h (fun x e => hb ⟨x, e⟩) (fun x e => hs ⟨x, e⟩)]

/-! ### The registers an instruction may write (R23, R24) -/

/-- A cycle that put one byte in `V[x]` before it retired leaves the other registers alone. -/
theorem reg_putReg_retire {u t : State} {x r : RegIdx} {b : Byte} {n : Nat} (h : (u.putReg x b).retire n = .next t)
    (hr : r ≠ x) : t.reg r = u.reg r := by
  rw [retire_eq_next.mp h]
  exact reg_putReg_ne u b hr

/-- So does one that put two. -/
theorem reg_putReg_putReg_retire {u t : State} {x y r : RegIdx} {b c : Byte} {n : Nat}
    (h : ((u.putReg x b).putReg y c).retire n = .next t) (hx : r ≠ x) (hy : r ≠ y) : t.reg r = u.reg r :=
  (reg_putReg_retire h hy).trans (reg_putReg_ne u b hx)

/-- A load that answers was inside memory, and placed every register of its run (R205). -/
theorem reg_of_load {s t : State} {x : RegIdx} (h : exec (.load x) s = .next t) :
    ∀ r : RegIdx, t.reg r = if r.toNat ≤ x.toNat then s.mem.read (s.base + r.toNat) else s.reg r := by
  by_cases hin : 4095 < s.base + x.toNat
  · rw [exec_load_outside hin] at h
    cases h
  · obtain ⟨u, hu, hregs, -⟩ := exec_load_inside hin
    cases h.symm.trans hu
    exact hregs

/-- Settles O49: an instruction that writes registers puts its bytes in the named ones and in `VF`; the others keep the file. -/
theorem unnamedRegistersAreUnchanged : Obligations.UnnamedRegistersAreUnchanged := by
  intro i s t h r hdest hflag
  have hr : setsFlag i = true → r ≠ flagReg := fun hset e => by
    rw [hflag e] at hset
    cases hset
  cases i
  case ldImm x _ | addImm x _ | ldReg x _ | or x _ | and x _ | xor x _ | ldVxDt x =>
    exact reg_putReg_retire h (ne_of_beq_false hdest)
  case rnd x nn =>
    exact reg_putReg_retire (u := s.drawn) h (ne_of_beq_false hdest)
  case addReg x y | sub x y =>
    exact reg_putReg_putReg_retire h (ne_of_beq_false hdest) (hr rfl)
  case subn x y =>
    rw [exec_subn] at h
    exact reg_putReg_putReg_retire h (ne_of_beq_false hdest) (hr rfl)
  case shr x | shl x =>
    exact reg_putReg_putReg_retire h (hr rfl) (ne_of_beq_false hdest)
  case load x =>
    rw [reg_of_load h, if_neg (of_decide_eq_false hdest)]
  case drw x y n =>
    obtain ⟨bs, -, hretire⟩ := orRaise_eq_next.mp h
    rw [retireDrawn_eq_next.mp hretire]
    exact reg_putReg_ne _ _ (hr rfl)
  case ldFont x => exact absurd h (exec_ldFont_ne_next x s t)
  all_goals
    rw [exec_frame h]
    rfl

/-- A cycle that put a flag in `VF` last leaves `VF` as 0 or 1. -/
theorem flag_putReg_retire {u t : State} {f : Bool} {n : Nat} (h : (u.putReg flagReg (flagByte f)).retire n = .next t) :
    t.reg flagReg = 0#8 ∨ t.reg flagReg = 1#8 := by
  have hf : t.reg flagReg = flagByte f := by
    rw [retire_eq_next.mp h]
    exact reg_putReg_same u flagReg _
  rw [hf]
  exact flagByte_cases f

/-- Settles O48: for the six, what stands in `VF` is a flag byte; for the others the frame of the registers covers it. -/
theorem onlySixInstructionsWriteTheFlagAsASideEffect : Obligations.OnlySixInstructionsWriteTheFlagAsASideEffect := by
  intro i s t h hdest
  split
  case isFalse hset =>
    exact unnamedRegistersAreUnchanged i s t h flagReg hdest fun _ => Bool.eq_false_of_not_eq_true hset
  case isTrue hset =>
    cases i
    case addReg x y | sub x y => exact flag_putReg_retire h
    case subn x y =>
      rw [exec_subn] at h
      exact flag_putReg_retire h
    case shr x | shl x =>
      have hf := reg_putReg_retire h (ne_of_beq_false hdest)
      rw [hf, reg_putReg_same]
      exact flagByte_cases _
    case drw x y n =>
      obtain ⟨bs, -, hretire⟩ := orRaise_eq_next.mp h
      rw [retireDrawn_eq_next.mp hretire]
      exact (reg_putReg_same _ flagReg _).symm ▸ flagByte_cases _
    all_goals cases hset

end Sys2Proof.Machine
end

section
/-! PROOFS. Invariants: what every step keeps, of a cycle or of any event (`10_state.md` R25 to R33). -/

namespace Sys2Proof.Machine

/-! ### One induction step for every invariant -/

/-- A predicate that does not see the list of events, and that instructions and events keep, is kept by every step. -/
theorem step_keeps {P : State → Prop} (hsched : ∀ s evs, P s → P { s with schedule := evs })
    (hexec : ∀ i s t, P s → s.wait = none → s.fetchedInstr = some i → exec i s = .next t → P t)
    (htimers : ∀ s d b, P s → P { s with dt := d, st := b })
    (hkey : ∀ s x b, P s → s.wait = some x → P { s.putReg x b with wait := none, pc := s.pc + 2#16 })
    (hreset : ∀ s, P (resetCore s)) {s t : State} (hs : P s) (h : step s = .next t) : P t := by
  have hcycle : ∀ s t, P s → cycle s = .next t → P t := fun s t hs h => by
    rcases cycle_eq_next.mp h with ⟨x, -, rfl⟩ | ⟨hw, w, i, hf, hd, hi⟩
    · exact hs
    · exact hexec i s t hs hw (fetchedInstr_eq_some.mpr ⟨w, hf, hd⟩) hi
  have hpress : ∀ k s, P s → P (keyEvent k s) := fun k s hs => by
    cases hw : s.wait with
    | none => rw [keyEvent_running k hw]; exact hs
    | some x => rw [keyEvent_suspended k hw]; exact hkey s x _ hs hw
  rcases step_cases h with ⟨-, hc⟩ | ⟨rest, -, hc⟩ | ⟨rest, -, rfl⟩ | ⟨rest, -, rfl⟩ | ⟨k, rest, -, rfl⟩ | ⟨rest, -, rfl⟩
  · exact hcycle s t hs hc
  · exact hcycle _ t (hsched s rest hs) hc
  · exact htimers _ (tickedDown s.dt) s.st (hsched s rest hs)
  · exact htimers _ s.dt (tickedDown s.st) (hsched s rest hs)
  · exact hpress k _ (hsched s rest hs)
  · exact hreset _

/-- An instruction is fetched from an address of at most 4094 (R54). -/
theorem pc_le_of_fetchedInstr {s : State} {i : Instr} (h : s.fetchedInstr = some i) : s.pc.toNat ≤ 4094 := by
  obtain ⟨w, hf, -⟩ := fetchedInstr_eq_some.mp h
  exact (fetch_ok hf).1

/-! ### Memory (R29; log 15) -/

theorem exec_keeps_wf {i : Instr} {s t : State} (hw : s.mem.wf) (h : exec i s = .next t) : t.mem.wf := by
  cases i
  case bcd x | store x =>
    obtain ⟨u, hstore, hretire⟩ := orRaise_eq_next.mp h
    have hu : u.mem.wf := memStore_wf hstore hw
    rw [retire_eq_next.mp hretire]
    exact hu
  all_goals
    rw [exec_mem h nofun nofun]
    exact hw

/-- Settles O53: the two stores keep the canonical form, no other instruction and no event writes memory, and reset clears it. -/
theorem everyStepKeepsMemoryCanonical : Obligations.EveryStepKeepsMemoryCanonical :=
  fun _ _ => step_keeps (P := fun s => s.mem.wf) (fun _ _ h => h) (fun _ _ _ hw _ _ h => exec_keeps_wf hw h)
    (fun _ _ _ h => h) (fun _ _ _ h _ => h) (fun _ => wf_reset)

/-! ### The call stack and the address register (R25, R30) -/

theorem exec_keeps_stackBounded {i : Instr} {s t : State} (hs : StackBounded s) (hpc : s.pc.toNat ≤ 4094)
    (h : exec i s = .next t) : StackBounded t := by
  obtain ⟨hlen, hentries⟩ := hs
  cases i
  case call nnn =>
    obtain ⟨u, hpush, hretire⟩ := orRaise_eq_next.mp h
    obtain ⟨hroom, rfl⟩ := push_ok hpush
    rw [retire_eq_next.mp hretire]
    refine ⟨by simp; omega, fun a ha => ?_⟩
    rcases List.mem_append.mp ha with ha | ha
    · exact hentries a ha
    · rw [List.mem_singleton.mp ha, BitVec.toNat_ofNat]
      omega
  case ret =>
    obtain ⟨⟨a, u⟩, hpop, hretire⟩ := orRaise_eq_next.mp h
    obtain ⟨hstack, -⟩ := pop_ok hpop
    rw [retire_eq_next.mp hretire]
    rw [hstack, List.length_append] at hlen
    rw [hstack] at hentries
    exact ⟨by simp; omega, fun b hb => hentries b (List.mem_append_left _ hb)⟩
  all_goals
    rw [exec_frame h]
    exact ⟨hlen, hentries⟩

theorem exec_keeps_addressBounded {i : Instr} {s t : State} (hs : AddressBounded s) (h : exec i s = .next t) :
    AddressBounded t := by
  cases i
  case ldI nnn =>
    obtain ⟨u, hu, hi, -⟩ := loadAddressSetsI s nnn
    cases h.symm.trans hu
    rw [AddressBounded, hi]
    omega
  case addI x =>
    obtain ⟨u, hu, hi, -⟩ := addToAddressWrapsAtTwelveBits s x
    cases h.symm.trans hu
    rw [AddressBounded, hi]
    omega
  all_goals
    rw [exec_frame h]
    exact hs

/-- Settles O54: a call that was fetched pushes an address of at most 4094, and every write of `I` is narrowed. -/
theorem everyStepKeepsTheCallStackAndTheAddressRegisterBounded :
    Obligations.EveryStepKeepsTheCallStackAndTheAddressRegisterBounded :=
  ⟨fun _ _ => step_keeps (P := StackBounded) (fun _ _ h => h)
      (fun _ _ _ hs _ hf h => exec_keeps_stackBounded hs (pc_le_of_fetchedInstr hf) h)
      (fun _ _ _ h => h) (fun _ _ _ h _ => h) (fun _ => stackBounded_reset),
    fun _ _ => step_keeps (P := AddressBounded) (fun _ _ h => h) (fun _ _ _ hs _ _ h => exec_keeps_addressBounded hs h)
      (fun _ _ _ h => h) (fun _ _ _ h _ => h) (fun _ => addressBounded_reset)⟩

/-! ### The wait (R33, R185) -/

theorem exec_keyWaitHolds {i : Instr} {s t : State} (hw : s.wait = none) (hf : s.fetchedInstr = some i)
    (h : exec i s = .next t) : KeyWaitHolds t := by
  cases i
  case ldVxK x =>
    cases h
    intro y hy
    cases hy
    exact ⟨hf, rfl⟩
  all_goals
    rw [exec_frame h]
    exact keyWaitHolds_of_running hw

/-- Settles O55: only `FX0A` begins a wait, at its own address, and while it lasts neither `pc` nor memory changes. -/
theorem everyStepKeepsTheKeyWaitOnItsInstruction : Obligations.EveryStepKeepsTheKeyWaitOnItsInstruction :=
  fun _ _ => step_keeps (P := KeyWaitHolds) (fun _ _ h => h) (fun _ _ _ _ hw hf h => exec_keyWaitHolds hw hf h)
    (fun _ _ _ h => h) (fun _ _ _ _ _ => keyWaitHolds_of_running rfl) (fun _ => keyWaitHolds_of_running rfl)

/-! ### The program counter (R28) -/

/-- A cycle that retires at a target up to the bound leaves `pc` there. -/
theorem retire_pc_le {u t : State} {n : Nat} (h : u.retire n = .next t) (hn : n ≤ 0x10FE) : t.pc.toNat ≤ 0x10FE := by
  rw [retire_eq_next.mp h, BitVec.toNat_ofNat]
  omega

theorem retireDrawn_pc_le {u t : State} {n : Nat} (h : u.retireDrawn n = .next t) (hn : n ≤ 0x10FE) :
    t.pc.toNat ≤ 0x10FE := by
  rw [retireDrawn_eq_next.mp h, BitVec.toNat_ofNat]
  omega

/-- From an address a word can be fetched from, no instruction takes `pc` past the bound; the indexed jump reaches it. -/
theorem exec_pcBounded {i : Instr} {s t : State} (hpc : s.pc.toNat ≤ 4094) (h : exec i s = .next t) : PcBounded t := by
  have hseq : s.nextSequential ≤ 0x10FE := by rw [State.nextSequential]; omega
  have hskip : ∀ b, s.nextSkip b ≤ 0x10FE := fun b => by rw [State.nextSkip]; split <;> omega
  cases i
  case cls => exact retireDrawn_pc_le h hseq
  case drw =>
    obtain ⟨bs, -, hretire⟩ := orRaise_eq_next.mp h
    exact retireDrawn_pc_le hretire hseq
  case jp nnn => exact retire_pc_le h (by omega)
  case jpV0 nnn => exact retire_pc_le h (by omega)
  case seImm | sneImm | seReg | sneReg | skp | sknp => exact retire_pc_le h (hskip _)
  case ret =>
    obtain ⟨⟨a, u⟩, -, hretire⟩ := orRaise_eq_next.mp h
    exact retire_pc_le hretire (by simp; omega)
  case call nnn =>
    obtain ⟨u, -, hretire⟩ := orRaise_eq_next.mp h
    exact retire_pc_le hretire (by omega)
  case bcd | store | load =>
    obtain ⟨u, -, hretire⟩ := orRaise_eq_next.mp h
    exact retire_pc_le hretire hseq
  case ldVxK x =>
    cases h
    exact hpc.trans (by decide)
  case ldFont x => exact absurd h (exec_ldFont_ne_next x s t)
  case subn =>
    rw [exec_subn] at h
    exact retire_pc_le h hseq
  all_goals exact retire_pc_le h hseq

/-- A suspended core that a press sets going again stands just behind its `FX0A`, which was fetched (R185). -/
theorem keyWait_pcBounded {s : State} {x : RegIdx} (hwait : KeyWaitHolds s) (hx : s.wait = some x) :
    (s.pc + 2#16).toNat ≤ 0x10FE := by
  obtain ⟨hf, -⟩ := hwait x hx
  have hpc := pc_le_of_fetchedInstr hf
  rw [BitVec.toNat_add, BitVec.toNat_ofNat]
  omega

/-- Settles O56: the bound is kept together with the invariant on the wait. -/
theorem everyStepKeepsTheProgramCounterBounded : Obligations.EveryStepKeepsTheProgramCounterBounded := by
  intro s t hpc hwait h
  have hboth : PcBounded t ∧ KeyWaitHolds t :=
    step_keeps (P := fun s => PcBounded s ∧ KeyWaitHolds s) (fun _ _ h => h)
      (fun _ _ _ _ hw hf h => ⟨exec_pcBounded (pc_le_of_fetchedInstr hf) h, exec_keyWaitHolds hw hf h⟩)
      (fun _ _ _ h => h) (fun _ _ _ hs hx => ⟨keyWait_pcBounded hs.2 hx, keyWaitHolds_of_running rfl⟩)
      (fun _ => ⟨pcBounded_reset, keyWaitHolds_of_running rfl⟩) ⟨hpc, hwait⟩ h
  exact hboth.1

end Sys2Proof.Machine
end

section
/-! PROOFS. What a step answers: a next state or one of the five failures (`60_exceptions.md` R220), and the two ends of a run
(R227, `70_reset_and_hazards.md` R261). -/

namespace Sys2Proof.Machine

/-! ### When an instruction fails -/

/-- The failure an instruction ends in, if it does: seven can fail, and the stack, the address register and the operands
decide it. -/
def failsOn (s : State) : Instr → Option Fault
  | .ret => if s.stack = [] then some .stackUnderflow else none
  | .call _ => if s.stack.length = 16 then some .stackOverflow else none
  | .drw _ _ n => (lowestOutside s.base n.toNat).map .outOfRange
  | .bcd _ => (lowestOutside s.base 3).map .outOfRange
  | .store x | .load x => (lowestOutside s.base (x.toNat + 1)).map .outOfRange
  | .ldFont x => some (.unimplemented (encode (.ldFont x)))
  | _ => none

/-- The outcome is that failure, or a next state where there is none. -/
def Answers (r : Result) (f : Option Fault) : Prop :=
  match f with
  | some f => r = .fault f
  | none => ∃ t, r = .next t

/-- A range access that goes on to a next state answers so, by whether the range leaves memory (R52). -/
theorem answers_memRead (s : State) (a n : Nat) {k : List Byte → Result} (hk : ∀ bs, ∃ t, k bs = .next t) :
    Answers (orRaise (s.memRead a n) k) ((lowestOutside a n).map .outOfRange) := by
  cases h : lowestOutside a n <;> simp [Answers, State.memRead, h, hk]

theorem answers_memStore (s : State) (a : Nat) (bs : List Byte) {k : State → Result} (hk : ∀ u, ∃ t, k u = .next t) :
    Answers (orRaise (s.memStore a bs) k) ((lowestOutside a bs.length).map .outOfRange) := by
  cases h : lowestOutside a bs.length <;> simp [Answers, State.memStore, h, hk]

theorem exec_answers (i : Instr) (s : State) : Answers (exec i s) (failsOn s i) := by
  cases i
  case ret =>
    simp only [failsOn]
    split
    case isTrue h => exact exec_ret_empty h
    case isFalse h => exact ⟨_, exec_ret_next (List.dropLast_append_getLast h).symm⟩
  case call nnn =>
    simp only [failsOn]
    split
    case isTrue h => exact exec_call_full nnn h
    case isFalse h => exact ⟨_, exec_call_next nnn h⟩
  case drw x y n => exact answers_memRead s _ _ fun bs => ⟨_, rfl⟩
  case load x => exact answers_memRead s _ _ fun bs => ⟨_, rfl⟩
  case bcd x => exact answers_memStore s _ _ fun u => ⟨_, rfl⟩
  case store x =>
    have h := answers_memStore s s.base (s.regsUpTo x) fun u => ⟨_, retire_eq u s.nextSequential⟩
    rwa [regsUpTo_length] at h
  case ldFont x => exact ldFontUnder_fault standard_hasFont x s
  all_goals exact ⟨_, rfl⟩

/-- So every execution goes one of two ways, and is never refused. -/
theorem exec_cases (i : Instr) (s : State) :
    (failsOn s i = none ∧ ∃ t, exec i s = .next t) ∨ ∃ f, failsOn s i = some f ∧ exec i s = .fault f := by
  have h := exec_answers i s
  cases hf : failsOn s i with
  | none => exact .inl ⟨rfl, by rwa [hf] at h⟩
  | some f => exact .inr ⟨f, rfl, by rwa [hf] at h⟩

theorem exec_eq_fault {i : Instr} {s : State} {f : Fault} : exec i s = .fault f ↔ failsOn s i = some f := by
  rcases exec_cases i s with ⟨hf, t, ht⟩ | ⟨g, hg, he⟩
  · simp [hf, ht]
  · simp [hg, he]

theorem exec_ne_refused (i : Instr) (s : State) (r : Refusal) : exec i s ≠ .refused r := by
  rcases exec_cases i s with ⟨-, t, ht⟩ | ⟨g, -, he⟩
  · simp [ht]
  · simp [he]

/-! ### A cycle -/

/-- A cycle that fails was running, and failed in its fetch, in its decoder or in its instruction (R228). -/
theorem cycle_eq_fault {s : State} {f : Fault} :
    cycle s = .fault f ↔ s.wait = none ∧
      (s.fetch = .error f ∨
        ∃ w, s.fetch = .ok w ∧ ((decodeWord w = none ∧ f = .unknownOpcode w) ∨
          ∃ i, decodeWord w = some i ∧ failsOn s i = some f)) := by
  cases hw : s.wait with
  | some x => simp [cycle_suspended hw]
  | none =>
    cases hf : s.fetch with
    | error g => simp [cycle_fetch_fault hw hf]
    | ok w =>
      cases hd : decodeWord w with
      | none => simp [cycle_unknown hw hf hd, hd, eq_comm]
      | some i => simp [cycle_runs hw hf hd, hd, exec_eq_fault]

theorem cycle_ne_refused (s : State) (r : Refusal) : cycle s ≠ .refused r := by
  cases hw : s.wait with
  | some x => simp [cycle_suspended hw]
  | none =>
    cases hf : s.fetch with
    | error g => simp [cycle_fetch_fault hw hf]
    | ok w =>
      cases hd : decodeWord w with
      | none => simp [cycle_unknown hw hf hd]
      | some i => simp [cycle_runs hw hf hd, exec_ne_refused]

/-- Settles O58: no instruction is refused, and every event but a cycle answers a next state. -/
theorem noStepIsRefused : Obligations.NoStepIsRefused := by
  intro s r
  cases hs : s.schedule with
  | nil =>
    rw [step_idle hs]
    exact cycle_ne_refused s r
  | cons e rest =>
    rw [step_event hs]
    cases e with
    | cycle => exact cycle_ne_refused _ r
    | tickGeneral | tickSound | keyEvent k | reset => exact nofun

/-! ### The two ends of a run -/

/-- Ticks and, while the core runs, key presses change the timers at most. -/
theorem act_running {s : State} (hw : s.wait = none) {e : Event} (hc : e ≠ .cycle) (hr : e ≠ .reset) :
    ∃ d b, act e s = .next { s with dt := d, st := b } := by
  cases e with
  | cycle => exact absurd rfl hc
  | reset => exact absurd rfl hr
  | tickGeneral => exact ⟨tickedDown s.dt, s.st, rfl⟩
  | tickSound => exact ⟨s.dt, tickedDown s.st, rfl⟩
  | keyEvent k => exact ⟨s.dt, s.st, congrArg _ (keyEvent_running k hw)⟩

/-- The timers do not decide a failure: fetch, decoder and `failsOn` do not see them. -/
theorem cycle_fault_of_timers {s : State} {f : Fault} (h : cycle s = .fault f) (d b : Byte) :
    cycle { s with dt := d, st := b } = .fault f := by
  have hs := cycle_eq_fault.mp h
  exact cycle_eq_fault.mpr hs

theorem atSelfJump_cycle {s : State} (h : s.atSelfJump = true) : cycle s = .next { s with displayDirty := false } := by
  obtain ⟨hw, nnn, hf, hpc⟩ := atSelfJump_iff.mp h
  obtain ⟨w, hfetch, hd⟩ := fetchedInstr_eq_some.mp hf
  rw [cycle_runs hw hfetch hd, exec_jp, retire_eq, hpc, BitVec.ofNat_toNat, BitVec.setWidth_eq]

/-- Settles O17: neither end sees what ticks and ignored key presses change. -/
theorem eitherEndOfARunLastsUntilReset : Obligations.EitherEndOfARunLastsUntilReset := by
  refine ⟨fun s f hfail e hc hr => ?_, fun s hself => ⟨⟨_, atSelfJump_cycle hself, rfl, hself⟩, fun e hc hr => ?_⟩⟩
  · obtain ⟨hw, -⟩ := cycle_eq_fault.mp hfail
    obtain ⟨d, b, hact⟩ := act_running hw hc hr
    exact ⟨_, hact, cycle_fault_of_timers hfail d b⟩
  · obtain ⟨hw, -⟩ := atSelfJump_iff.mp hself
    obtain ⟨d, b, hact⟩ := act_running hw hc hr
    exact ⟨_, hact, rfl, hself⟩

end Sys2Proof.Machine
end

section
/-! PROOFS. The sound timer (`10_state.md` R31, `43_input_timers.md` section 4): two states that differ in it alone stay so. -/

namespace Sys2Proof.Machine

/-! ### Operations beside another sound timer -/

theorem sampled_withSound (s : State) (b k : Byte) : State.sampled { s with st := b } k = { s.sampled k with st := b } := by
  unfold State.sampled
  split <;> rfl

theorem loadRegs_withSound (b : Byte) (bs : List Byte) : ∀ (s : State) (k : Nat),
    State.loadRegs { s with st := b } k bs = { s.loadRegs k bs with st := b } := by
  induction bs with
  | nil => intro s k; rfl
  | cons c bs ih => intro s k; exact ih (s.putReg (BitVec.ofNat 4 k) c) (k + 1)

theorem memStore_withSound {s u : State} {a : Nat} {bs : List Byte} (b : Byte) (h : s.memStore a bs = .ok u) :
    State.memStore { s with st := b } a bs = .ok { u with st := b } := by
  obtain ⟨hr, rfl⟩ := memStore_ok h
  exact memStore_inside _ hr

/-! ### Instructions -/

/-- An instruction that completes does so beside another sound timer, and writes every other cell alike. -/
theorem exec_next_withSound {i : Instr} {s t : State} (b : Byte) (h : exec i s = .next t) :
    ∃ c, exec i { s with st := b } = .next { t with st := c } := by
  cases i
  case ret =>
    obtain ⟨⟨a, u⟩, hpop, hretire⟩ := orRaise_eq_next.mp h
    obtain ⟨hstack, hu⟩ := pop_ok hpop
    rw [retire_eq_next.mp hretire, hu]
    exact ⟨b, exec_ret_next (s := { s with st := b }) hstack⟩
  case call nnn =>
    obtain ⟨u, hpush, hretire⟩ := orRaise_eq_next.mp h
    obtain ⟨hroom, rfl⟩ := push_ok hpush
    rw [retire_eq_next.mp hretire]
    exact ⟨b, exec_call_next (s := { s with st := b }) nnn hroom⟩
  case drw x y n =>
    obtain ⟨bs, hread, hretire⟩ := orRaise_eq_next.mp h
    rw [retireDrawn_eq_next.mp hretire]
    exact ⟨b, orRaise_eq_next.mpr ⟨bs, hread, rfl⟩⟩
  case load x =>
    obtain ⟨bs, hread, hretire⟩ := orRaise_eq_next.mp h
    rw [retire_eq_next.mp hretire]
    exact ⟨b, orRaise_eq_next.mpr ⟨bs, hread, congrArg (fun u : State => u.retire _) (loadRegs_withSound b bs s 0)⟩⟩
  case bcd x | store x =>
    obtain ⟨u, hstore, hretire⟩ := orRaise_eq_next.mp h
    rw [retire_eq_next.mp hretire]
    exact ⟨b, orRaise_eq_next.mpr ⟨_, memStore_withSound b hstore, rfl⟩⟩
  case skp x | sknp x =>
    rw [retire_eq_next.mp h]
    exact ⟨b, congrArg (fun u : State => u.retire _) (sampled_withSound s b (s.reg x))⟩
  case subn x y =>
    rw [exec_subn] at h ⊢
    rw [retire_eq_next.mp h]
    exact ⟨b, rfl⟩
  case ldFont x => exact absurd h (exec_ldFont_ne_next x s t)
  case cls | ldVxK x =>
    cases h
    exact ⟨b, rfl⟩
  case ldStVx x =>
    rw [retire_eq_next.mp h]
    exact ⟨_, exec_ldStVx_next x { s with st := b }⟩
  case jp | jpV0 | seImm | sneImm | seReg | sneReg | ldImm | addImm | ldReg | or | and | xor | addReg | sub | shr | shl
      | ldVxDt | rnd | ldDtVx | ldI | addI =>
    rw [retire_eq_next.mp h]
    exact ⟨b, rfl⟩

/-! ### Cycles and steps -/

/-- One outcome is the other, but for the sound timer of the next state. -/
def SameOutcomeButSound (r r' : Result) : Prop :=
  (∀ t, r = .next t → ∃ u, r' = .next u ∧ SameButSound t u) ∧ (∀ f, r = .fault f → r' = .fault f)

theorem sameOutcomeButSound_next {t u : State} (h : SameButSound t u) : SameOutcomeButSound (.next t) (.next u) :=
  ⟨fun _ ht => ⟨u, rfl, by cases ht; exact h⟩, nofun⟩

theorem cycle_sameOutcomeButSound (s : State) (b : Byte) : SameOutcomeButSound (cycle s) (cycle { s with st := b }) := by
  refine ⟨fun t ht => ?_, fun f hf => ?_⟩
  · rcases cycle_eq_next.mp ht with ⟨x, hw, rfl⟩ | ⟨hw, w, i, hfetch, hd, hi⟩
    · exact ⟨_, cycle_suspended (s := { t with st := b }) hw, rfl⟩
    · obtain ⟨c, hc⟩ := exec_next_withSound b hi
      exact ⟨_, cycle_eq_next.mpr (.inr ⟨hw, w, i, hfetch, hd, hc⟩), rfl⟩
  · exact cycle_fault_of_timers hf s.dt b

theorem act_sameOutcomeButSound (e : Event) (s : State) (b : Byte) :
    SameOutcomeButSound (act e s) (act e { s with st := b }) := by
  cases e with
  | cycle => exact cycle_sameOutcomeButSound s b
  | tickGeneral | tickSound | reset => exact sameOutcomeButSound_next rfl
  | keyEvent k =>
    refine sameOutcomeButSound_next ?_
    by_cases hw : s.wait = none
    · rw [keyEvent_running k hw, keyEvent_running (s := { s with st := b }) k hw]
      rfl
    · obtain ⟨x, hx⟩ := Option.ne_none_iff_exists'.mp hw
      rw [keyEvent_suspended k hx, keyEvent_suspended (s := { s with st := b }) k hx]
      rfl

/-- Settles O57: no cycle and no event sees the sound timer but to write it. -/
theorem theSoundTimerInfluencesNothing : Obligations.TheSoundTimerInfluencesNothing := by
  intro s b
  change SameOutcomeButSound (step s) (step { s with st := b })
  by_cases hs : s.schedule = []
  · rw [step_idle hs, step_idle (s := { s with st := b }) hs]
    exact cycle_sameOutcomeButSound s b
  · obtain ⟨e, rest, hcons⟩ := List.exists_cons_of_ne_nil hs
    rw [step_event hcons, step_event (s := { s with st := b }) hcons]
    exact act_sameOutcomeButSound e { s with schedule := rest } b

end Sys2Proof.Machine
end

section
/-! PROOFS. The parameters of `00_scope.md` R4: the machine at their defaults, and what each of them changes. -/

namespace Sys2Proof.Machine

/-! ### The defaults -/

/-- The eight instructions a parameter reaches are at the defaults what `exec` runs; the others read no parameter. -/
theorem execUnder_standard (i : Instr) (s : State) : execUnder Config.standard i s = exec i s := by
  cases i <;> rfl

theorem execUnder_of_not_readsParameter (c : Config) {i : Instr} (s : State) (h : readsParameter i = false) :
    execUnder c i s = exec i s := by
  cases i
  case ret | call | subn | ldI | skp | sknp | addI | ldFont => cases h
  all_goals rfl

theorem stepUnder_standard (s : State) : stepUnder Config.standard s = step s := by
  have hrun : execUnder Config.standard = exec := funext₂ execUnder_standard
  have hcycle : cycleUnder Config.standard = cycle := by
    funext s
    rw [cycleUnder, hrun]
    rfl
  rw [stepUnder, hcycle]
  rfl

/-- Settles O59: a configuration is its seven parameters. -/
theorem theStepIsTheParametricStepAtTheDefaults : Obligations.TheStepIsTheParametricStepAtTheDefaults := by
  refine ⟨stepUnder_standard, ?_⟩
  rintro ⟨mask, width, depth, offset, reversed, oor, font⟩ s rfl rfl rfl rfl rfl rfl rfl
  exact stepUnder_standard s

/-! ### `RET_OFFSET` and `STACK_DEPTH` (R104, R106) -/

theorem callUnder_full {c : Config} {s : State} (nnn : Addr) (h : c.stackDepth = some s.stack.length) :
    callUnder c nnn s = .fault .stackOverflow := by
  rw [callUnder, State.pushUnder, if_pos h, orRaise_error]

theorem callUnder_room {c : Config} {s : State} (nnn : Addr) (h : c.stackDepth ≠ some s.stack.length) :
    callUnder c nnn s = .next
      { s with stack := s.stack ++ [BitVec.ofNat 12 s.pc.toNat], pc := BitVec.ofNat 16 nnn.toNat, displayDirty := false } := by
  rw [callUnder, State.pushUnder, if_neg h, orRaise_ok, retire_eq]

/-! ### `SUBN_REVERSED` (R141) -/

theorem subnUnder_next (c : Config) (s : State) (x y : RegIdx) :
    ∃ t, subnUnder c x y s = .next t ∧
      t.reg flagReg =
        (if c.subnReversed then (if (s.reg y).toNat < (s.reg x).toNat then 0#8 else 1#8)
         else (if (s.reg x).toNat < (s.reg y).toNat then 0#8 else 1#8)) ∧
      (x ≠ flagReg → ((t.reg x).toNat : Int) =
        (if c.subnReversed then ((s.reg y).toNat - (s.reg x).toNat : Int)
         else ((s.reg x).toNat - (s.reg y).toNat : Int)) % 256) := by
  cases h : c.subnReversed with
  | true =>
    obtain ⟨t, ht, hx, hflag, -⟩ := subtractInto_next s x (s.reg y) (s.reg x)
    exact ⟨t, (subnUnder_reversed h x y s).trans ht, hflag, hx⟩
  | false =>
    obtain ⟨t, ht, hx, hflag, -⟩ := subtractInto_next s x (s.reg x) (s.reg y)
    exact ⟨t, (subnUnder_forward h x y s).trans ht, hflag, hx⟩

/-! ### `CAT0_MASK` (R74, R78) -/

/-- The mask of category 0 is all of the configuration that the decoder reads. -/
theorem decodeWordUnder_congr {c d : Config} (h : c.cat0Mask = d.cat0Mask) (w : Word) :
    decodeWordUnder c w = decodeWordUnder d w := by
  have hlevel : level1 c = level1 d := by rw [level1, level1, h]
  rw [decodeWordUnder, decodeWordUnder, decodeTagUnder, decodeTagUnder, hlevel]

/-- The stricter choice of the mask, the other parameters at their defaults. -/
def strictMask : Config := { cat0Mask := 0xFFF#12 }

theorem level1_strictMask : ∀ k : BitVec 4, k ≠ 0#4 → (level1 strictMask)[k.toNat]'k.isLt = entryOf k := by
  decide

/-- With the whole payload as the key, category 0 has a handler for the two canonical words only. -/
theorem resolve_strict_category0 (r : Addr) :
    resolve (.sub 0xFFF#12 table0) r = if fieldX r ≠ 0#4 then none else resolve (.sub 0x0FF#12 table0) r := by
  have hall : r &&& 0xFFF#12 = r := BitVec.and_allOnes
  split
  case isTrue hx =>
    have hkeys : ∀ p ∈ table0, fieldX p.1 = 0#4 := by decide
    refine List.lookup_eq_none_iff.mpr fun p hp => ?_
    rw [hall, bne_iff_ne]
    rintro rfl
    exact hx (hkeys p hp)
  case isFalse hx =>
    have hlow : r &&& 0x0FF#12 = r := by
      conv_lhs => rw [← payload_eq_packPayload r, packPayload_and_low_byte, ← not_ne_iff.mp hx, payload_eq_packPayload]
    rw [resolve, resolve, hall, hlow]

theorem decodeWordUnder_strictMask (w : Word) :
    decodeWordUnder strictMask w = if category w = 0#4 ∧ fieldX (payload w) ≠ 0#4 then none else decodeWord w := by
  by_cases hc : category w = 0#4
  · have hdefault : decodeWord w = (resolve (.sub 0x0FF#12 table0) (payload w)).map fun t => t.instr (payload w) := by
      rw [← word_eq_packWord w, hc, decodeWord, decodeWordUnder_packWord, payload_packWord]
      rfl
    have hstrict : decodeWordUnder strictMask w =
        (resolve (.sub 0xFFF#12 table0) (payload w)).map fun t => t.instr (payload w) := by
      rw [← word_eq_packWord w, hc, decodeWordUnder_packWord, payload_packWord]
      rfl
    rw [hstrict, hdefault, resolve_strict_category0]
    simp only [hc, true_and]
    split <;> rfl
  · rw [if_neg fun h => hc h.1, decodeWord, decodeWordUnder, decodeWordUnder, decodeTagUnder, level1_strictMask _ hc]
    rfl

/-! ### An access that starts above 4095 (R52) -/

theorem max_base_of_above {s : State} (h : 4095 < s.base) : max s.base 4096 = s.base :=
  Nat.max_eq_left h

/-- Settles O60: one clause or two for each parameter, from the lemma on the instruction it reaches. -/
theorem eachParameterHasItsStatedEffect : Obligations.EachParameterHasItsStatedEffect := by
  refine ⟨fun c s rest a h => ⟨_, retUnder_next c h, rfl, BitVec.toNat_ofNat _ _⟩, fun c s nnn => ?_,
    fun c s nnn h => ⟨_, callUnder_room nnn (by rw [h]; nofun)⟩, subnUnder_next, fun c s x h => ⟨?_, ?_⟩,
    fun c w => ⟨fun h => decodeWordUnder_congr h w, fun h => ?_⟩, fun c s nnn x h => ⟨?_, ?_⟩,
    fun c s x y n h => ?_, fun c s x => ?_, fun c i s h => execUnder_of_not_readsParameter c s h⟩
  · split
    case isTrue h => exact callUnder_full nnn h
    case isFalse h =>
      exact ⟨_, _, callUnder_room nnn h, rfl, BitVec.toNat_ofNat _ _, toNat_pc_ofAddr nnn⟩
  · exact ⟨_, skpUnder_above c h, rfl⟩
  · refine ⟨_, sknpUnder_above c h, ?_⟩
    cases c.keyOor <;> rfl
  · rw [decodeWordUnder_congr (d := strictMask) h, decodeWordUnder_strictMask]
  · obtain ⟨t, ht, hi, -⟩ := ldIUnder_next c s nnn h
    exact ⟨t, ht, hi⟩
  · obtain ⟨t, ht, hi, -⟩ := addIUnder_next c s x h
    exact ⟨t, ht, hi⟩
  · rw [← max_base_of_above h]
    exact ⟨exec_bcd_outside x (by omega), exec_store_outside (by omega), exec_load_outside (by omega),
      fun hn => exec_drw_outside x y (by have := mt (nibble_toNat_eq_zero n).mp hn; omega)⟩
  · cases h : c.hasFont with
    | true => exact if_pos h
    | false => exact ⟨_, ldFontUnder_fault h x s, decodeWord_encode _⟩

end Sys2Proof.Machine
end

section
/-! PROOFS. The compositor (`42_display.md` R162 to R166): its loops stamp one bit, one row, one
sprite, each in the same sense. -/

namespace Sys2Proof.Machine

/-! ### A stamp: a pattern XORed onto the grid -/

/-- `acc'` is `acc` after the pattern `f` was XORed onto the grid; the collision is raised where a lit pixel met it (R162 to
R164). -/
def Stamps (f : Nat → Nat → Bool) (acc acc' : Framebuffer × Bool) : Prop :=
  (∀ x y, x ≤ 63 → y ≤ 31 → Framebuffer.pixel acc'.1 x y = (Framebuffer.pixel acc.1 x y ^^ f x y)) ∧
  (acc'.2 = true ↔ acc.2 = true ∨ ∃ x y, x ≤ 63 ∧ y ≤ 31 ∧ Framebuffer.pixel acc.1 x y = true ∧ f x y = true)

/-- The empty pattern changes nothing. -/
theorem stamps_empty {f : Nat → Nat → Bool} (hf : ∀ x y, f x y = false) (acc : Framebuffer × Bool) : Stamps f acc acc := by
  simp [Stamps, hf]

/-- Two stamps that do not overlap are one stamp of both patterns: the second meets the picture the first found. -/
theorem Stamps.trans {f g h : Nat → Nat → Bool} {a b c : Framebuffer × Bool} (hab : Stamps f a b) (hbc : Stamps g b c)
    (hor : ∀ x y, h x y = (f x y || g x y)) (hdisj : ∀ x y, g x y = true → f x y = false) : Stamps h a c := by
  obtain ⟨hpix, hcol⟩ := hab
  obtain ⟨hpix', hcol'⟩ := hbc
  have hsame : ∀ x y, x ≤ 63 → y ≤ 31 → g x y = true → Framebuffer.pixel b.1 x y = Framebuffer.pixel a.1 x y :=
    fun x y hx hy hg => by rw [hpix x y hx hy, hdisj x y hg, Bool.xor_false]
  refine ⟨fun x y hx hy => ?_, ?_⟩
  · rw [hpix' x y hx hy, hor]
    cases hg : g x y with
    | true => rw [hsame x y hx hy hg, hdisj x y hg, Bool.false_or]
    | false => rw [hpix x y hx hy, Bool.xor_false, Bool.or_false]
  · rw [hcol', hcol, or_assoc]
    refine or_congr_right ⟨?_, ?_⟩
    · rintro (⟨x, y, hx, hy, hlit, hf⟩ | ⟨x, y, hx, hy, hlit, hg⟩)
      · exact ⟨x, y, hx, hy, hlit, by rw [hor, hf, Bool.true_or]⟩
      · exact ⟨x, y, hx, hy, hsame x y hx hy hg ▸ hlit, by rw [hor, hg, Bool.or_true]⟩
    · rintro ⟨x, y, hx, hy, hlit, hh⟩
      rw [hor, Bool.or_eq_true] at hh
      rcases hh with hf | hg
      · exact .inl ⟨x, y, hx, hy, hlit, hf⟩
      · exact .inr ⟨x, y, hx, hy, (hsame x y hx hy hg).trans hlit, hg⟩

/-! ### One bit, one row, one sprite -/

theorem stamps_drawBit (px py : Nat) (bit : Bool) (acc : Framebuffer × Bool) :
    Stamps (fun x y => decide (x = px ∧ y = py) && bit) acc (drawBit px py bit acc) := by
  refine ⟨fun x y hx hy => ?_, ?_⟩
  · have hgrid : (x = px ∧ y = py ∧ px ≤ 63 ∧ py ≤ 31) ↔ (x = px ∧ y = py) := by omega
    rw [pixel_drawBit, Bool.and_comm, decide_eq_decide.mpr hgrid]
  · rw [collision_drawBit, Bool.or_eq_true, Bool.and_eq_true]
    refine or_congr_right ⟨fun ⟨hlit, hbit⟩ => ?_, ?_⟩
    · have hin : px < 64 ∧ py < 32 := by
        by_contra hout
        rw [pixel_outside _ hout] at hlit
        cases hlit
      exact ⟨px, py, by omega, by omega, hlit, by simp [hbit]⟩
    · rintro ⟨x, y, -, -, hlit, hf⟩
      simp only [Bool.and_eq_true, decide_eq_true_eq] at hf
      obtain ⟨⟨rfl, rfl⟩, hbit⟩ := hf
      exact ⟨hlit, hbit⟩

/-- The first `k` columns of a sprite row drawn at `(x0, py)`. -/
def rowPattern (x0 py : Nat) (b : Byte) (k x y : Nat) : Bool :=
  decide (y = py ∧ x0 ≤ x ∧ x < x0 + k) && spriteBit b (x - x0)

theorem stamps_columns (x0 py : Nat) (b : Byte) (acc : Framebuffer × Bool) (k : Nat) :
    Stamps (rowPattern x0 py b k) acc
      ((List.range k).foldl (fun acc col => drawBit (x0 + col) py (spriteBit b col) acc) acc) := by
  induction k with
  | zero => exact stamps_empty (fun x y => by simp [rowPattern]) acc
  | succ k ih =>
    rw [List.range_succ, List.foldl_append]
    refine ih.trans (stamps_drawBit (x0 + k) py (spriteBit b k) _) (fun x y => ?_) fun x y hbit => ?_
    · by_cases hx : x = x0 + k
      · subst hx
        simp [rowPattern]
      · have hlt : x < x0 + (k + 1) ↔ x < x0 + k := by omega
        simp [rowPattern, hx, hlt]
    · simp only [Bool.and_eq_true, decide_eq_true_eq] at hbit
      obtain ⟨⟨rfl, rfl⟩, -⟩ := hbit
      simp [rowPattern]

theorem stamps_drawRow (x0 py : Nat) (b : Byte) (acc : Framebuffer × Bool) :
    Stamps (rowPattern x0 py b 8) acc (drawRow x0 py b acc) :=
  stamps_columns x0 py b acc 8

theorem spriteAt_nil (x0 y0 x y : Nat) : spriteAt [] x0 y0 x y = false := by
  simp [spriteAt]

/-- The top row, and below it the rest of the sprite. -/
theorem spriteAt_cons (b : Byte) (bs : List Byte) (x0 y0 x y : Nat) :
    spriteAt (b :: bs) x0 y0 x y = (rowPattern x0 y0 b 8 x y || spriteAt bs x0 (y0 + 1) x y) := by
  rcases Nat.lt_trichotomy y y0 with hy | rfl | hy
  · simp [spriteAt, rowPattern, show ¬ y0 ≤ y by omega, show ¬ y0 + 1 ≤ y by omega, show y ≠ y0 by omega]
  · simp [spriteAt, rowPattern, spriteBit]
  · have hrow : y - y0 = (y - (y0 + 1)) + 1 := by omega
    simp [spriteAt, rowPattern, hrow, show y0 ≤ y by omega, show y0 + 1 ≤ y by omega, show y ≠ y0 by omega]

/-- The rest of the sprite does not reach up into the row above it. -/
theorem rowPattern_of_spriteAt_below {bs : List Byte} {b : Byte} {x0 y0 x y : Nat} (h : spriteAt bs x0 (y0 + 1) x y = true) :
    rowPattern x0 y0 b 8 x y = false := by
  have hy : y0 + 1 ≤ y := by
    by_contra hlt
    simp [spriteAt, hlt] at h
  simp [rowPattern, show y ≠ y0 by omega]

theorem stamps_drawRows (x0 : Nat) (bs : List Byte) : ∀ (py : Nat) (acc : Framebuffer × Bool),
    Stamps (spriteAt bs x0 py) acc (drawRows x0 py bs acc) := by
  induction bs with
  | nil => exact fun py acc => stamps_empty (spriteAt_nil x0 py) acc
  | cons b bs ih =>
    exact fun py acc => (stamps_drawRow x0 py b acc).trans (ih (py + 1) _) (spriteAt_cons b bs x0 py)
      fun x y => rowPattern_of_spriteAt_below

/-! ### The statements -/

/-- Settles O34: a sprite is one stamp of its pattern, on a picture without a collision yet. -/
theorem compositorDrawsEveryPixelAtOnce : Obligations.CompositorDrawsEveryPixelAtOnce := by
  intro fb bs x0 y0
  obtain ⟨hpix, hcol⟩ := stamps_drawRows x0 bs y0 (fb, false)
  exact ⟨hpix, hcol.trans (or_iff_right Bool.false_ne_true)⟩

/-- Settles O35: XOR twice with one pattern is nothing, and on a cleared buffer the lit pixels are the pattern. -/
theorem drawingTheSameSpriteTwiceRestoresThePicture : Obligations.DrawingTheSameSpriteTwiceRestoresThePicture := by
  refine ⟨fun fb bs x0 y0 => framebuffer_ext fun x y hx hy => ?_, fun bs x0 y0 => ?_⟩
  · obtain ⟨hpix, -⟩ := compositorDrawsEveryPixelAtOnce fb bs x0 y0
    obtain ⟨hpix', -⟩ := compositorDrawsEveryPixelAtOnce (drawSprite fb bs x0 y0).1 bs x0 y0
    rw [hpix' x y (by omega) (by omega), hpix x y (by omega) (by omega), Bool.xor_assoc, Bool.xor_self, Bool.xor_false]
  · obtain ⟨hpix, hcol⟩ := compositorDrawsEveryPixelAtOnce clearedFramebuffer bs x0 y0
    obtain ⟨-, hcol'⟩ := compositorDrawsEveryPixelAtOnce (drawSprite clearedFramebuffer bs x0 y0).1 bs x0 y0
    have hlit : ∀ x y, x ≤ 63 → y ≤ 31 →
        Framebuffer.pixel (drawSprite clearedFramebuffer bs x0 y0).1 x y = spriteAt bs x0 y0 x y := fun x y hx hy => by
      rw [hpix x y hx hy, pixel_cleared, Bool.false_xor]
    refine ⟨?_, hcol'.trans ?_⟩
    · refine Bool.eq_false_of_not_eq_true fun h => ?_
      obtain ⟨x, y, -, -, hon, -⟩ := hcol.mp h
      rw [pixel_cleared] at hon
      cases hon
    · refine exists₂_congr fun x y => and_congr_right fun hx => and_congr_right fun hy => ?_
      rw [hlit x y hx hy, and_self]

end Sys2Proof.Machine
end
